-- ==== Sys2Proof/Word.lean ====
section
/-! DEFINITION. The words of the hardware: bytes, 32-bit words, 4-bit indices, and the colour triple RGB888 (R94). -/

namespace Sys2Proof

abbrev Byte := BitVec 8

abbrev Word := BitVec 32

/-- A palette index: a nibble of a packed pixel byte (R92). -/
abbrev Index := BitVec 4

/-- A colour triple, "(r, g, b: 8-bit unsigned)" (R94). It is a triple, not a number. -/
structure RGB where
  r : Byte
  g : Byte
  b : Byte
deriving DecidableEq, Repr, Inhabited

end Sys2Proof
end

