-- ==== Sys2Proof/Syntax.lean ====
section
/-! DEFINITION. The operations of the opcode table (R106), the formats their words have (R90), and the PHASE names (R24). -/

namespace Sys2Proof

/-- One constructor per row of the opcode table (R106): ten sequencer operations and three halt states selected by
PHASE, five combinational functions with their input word, and the host command START with its CTRLWORD. -/
inductive Instr where
  | idle
  | chklen
  | rdhdr
  | chkdim
  | size
  | ldpix
  | ldpal
  | unpack
  | emithdr
  | emitpix
  | commit
  | done
  | fail
  /-- SCALE5: a 5-bit channel value (R130). -/
  | scale5 (v : BitVec 5)
  /-- CVT555: an RGB555 word (R131, R93). -/
  | cvt555 (p : BitVec 16)
  /-- UNPK: a packed pixel byte (R146, R92). -/
  | unpk (b : Byte)
  /-- IDXAT: a flat pixel number below 2^24 (R161, R104). -/
  | idxat (n : BitVec 24)
  /-- RESOLVE: a palette index (R162). -/
  | resolve (i : Index)
  /-- START: the word written to CSR0, bit 0 = 1, bits 31:1 ignored but kept (R180, R98). -/
  | start (ctrl : Word)
deriving DecidableEq, Repr

/-- PHASE, the core's program counter (R24): an enumeration without the unused codes 13, 14, 15, as R108 asks. -/
inductive Phase where
  | idle
  | chklen
  | rdhdr
  | chkdim
  | size
  | ldpix
  | ldpal
  | unpack
  | emithdr
  | emitpix
  | commit
  | done
  | fail
deriving DecidableEq, Repr

/-- The input word of a combinational function. Such a function has no code (R106): its input's format names it. -/
inductive FnWord where
  | v5 (v : BitVec 5)
  | rgb555 (p : BitVec 16)
  | pixb (b : Byte)
  | flatpix (n : BitVec 24)
  | idx4 (i : Index)
deriving DecidableEq, Repr

/-- A word that selects an operation, with the format that says where it stands: OPCODE in PHASE (R97), CTRLWORD on a
write of CSR0 (R98), or the input of a function. The same bits mean different things in different formats. -/
inductive CodeWord where
  | opcode (c : BitVec 4)
  | ctrlword (v : Word)
  | fn (w : FnWord)
deriving DecidableEq, Repr

/-- The names of the formats of the opcode table's rows (R90). -/
inductive Format where
  | opcode
  | v5
  | rgb555
  | pixb
  | flatpix
  | idx4
  | ctrlword
deriving DecidableEq, Repr

end Sys2Proof
end

