-- ==== Sys2Proof/WellFormed.lean ====
section
/-! DEFINITION. When a term of Instr is an operation of the hardware. -/

namespace Sys2Proof

/-- The one check the types do not make: a CTRLWORD is a START only if its bit 0 is 1 (R29, R98). Every value of every
other operand is legal (R92, R93, R109). -/
def Instr.wf : Instr → Bool
  | .idle => true
  | .chklen => true
  | .rdhdr => true
  | .chkdim => true
  | .size => true
  | .ldpix => true
  | .ldpal => true
  | .unpack => true
  | .emithdr => true
  | .emitpix => true
  | .commit => true
  | .done => true
  | .fail => true
  | .scale5 _ => true
  | .cvt555 _ => true
  | .unpk _ => true
  | .idxat _ => true
  | .resolve _ => true
  | .start ctrl => ctrl.getLsbD 0

end Sys2Proof
end

