-- ==== Sys2Proof/Decode.lean ====
section
/-! DEFINITION. Decoding and encoding of the words that select an operation (R97, R98, R106), as typed words and as bytes. -/

namespace Sys2Proof

/-- Why a word selects no operation. -/
inductive DecodeError where
  /-- OPCODE 13, 14 or 15 (R108). -/
  | unusedPhaseCode (c : BitVec 4)
  /-- A CTRLWORD whose bit 0 is 0: no command (R29). -/
  | startBitClear (v : Word)
  /-- Not as many bytes as the format has. -/
  | wrongLength (f : Format)
  /-- A bit is set above the format's width. -/
  | bitsAboveWidth (f : Format)
deriving DecidableEq, Repr

/-- The code of a phase (R24). -/
def Phase.code : Phase → BitVec 4
  | .idle => 0
  | .chklen => 1
  | .rdhdr => 2
  | .chkdim => 3
  | .size => 4
  | .ldpix => 5
  | .ldpal => 6
  | .unpack => 7
  | .emithdr => 8
  | .emitpix => 9
  | .commit => 10
  | .done => 11
  | .fail => 12

/-- The phase a code names; 13, 14 and 15 name none (R108). -/
def Phase.ofCode (c : BitVec 4) : Option Phase :=
  match c.toNat with
  | 0 => some .idle
  | 1 => some .chklen
  | 2 => some .rdhdr
  | 3 => some .chkdim
  | 4 => some .size
  | 5 => some .ldpix
  | 6 => some .ldpal
  | 7 => some .unpack
  | 8 => some .emithdr
  | 9 => some .emitpix
  | 10 => some .commit
  | 11 => some .done
  | 12 => some .fail
  | _ => none

/-- OPCODE: "nothing to decode beyond equality with a code" (R97). -/
def decodeOpcode (c : BitVec 4) : Except DecodeError Instr :=
  match c.toNat with
  | 0 => .ok .idle
  | 1 => .ok .chklen
  | 2 => .ok .rdhdr
  | 3 => .ok .chkdim
  | 4 => .ok .size
  | 5 => .ok .ldpix
  | 6 => .ok .ldpal
  | 7 => .ok .unpack
  | 8 => .ok .emithdr
  | 9 => .ok .emitpix
  | 10 => .ok .commit
  | 11 => .ok .done
  | 12 => .ok .fail
  | _ => .error (.unusedPhaseCode c)

/-- The operation a word selects (R106). Total: a word that selects none is rejected by name. -/
def decode : CodeWord → Except DecodeError Instr
  | .opcode c => decodeOpcode c
  | .ctrlword v => if v.getLsbD 0 then .ok (.start v) else .error (.startBitClear v)
  | .fn (.v5 v) => .ok (.scale5 v)
  | .fn (.rgb555 p) => .ok (.cvt555 p)
  | .fn (.pixb b) => .ok (.unpk b)
  | .fn (.flatpix n) => .ok (.idxat n)
  | .fn (.idx4 i) => .ok (.resolve i)

/-- The word of an operation, written from the table's encodings (R106). -/
def encode : Instr → CodeWord
  | .idle => .opcode 0b0000#4
  | .chklen => .opcode 0b0001#4
  | .rdhdr => .opcode 0b0010#4
  | .chkdim => .opcode 0b0011#4
  | .size => .opcode 0b0100#4
  | .ldpix => .opcode 0b0101#4
  | .ldpal => .opcode 0b0110#4
  | .unpack => .opcode 0b0111#4
  | .emithdr => .opcode 0b1000#4
  | .emitpix => .opcode 0b1001#4
  | .commit => .opcode 0b1010#4
  | .done => .opcode 0b1011#4
  | .fail => .opcode 0b1100#4
  | .scale5 v => .fn (.v5 v)
  | .cvt555 p => .fn (.rgb555 p)
  | .unpk b => .fn (.pixb b)
  | .idxat n => .fn (.flatpix n)
  | .resolve i => .fn (.idx4 i)
  | .start ctrl => .ctrlword ctrl

/-- Width of a format in bits (R90 and the table's width column). -/
def Format.bits : Format → Nat
  | .opcode => 4
  | .v5 => 5
  | .rgb555 => 16
  | .pixb => 8
  | .flatpix => 24
  | .idx4 => 4
  | .ctrlword => 32

/-- Width of a format in whole bytes (DESIGN CHOICE, log 22: the spec stores no OPCODE, V5, IDX4, FLATPIX or CTRLWORD in
bytes). -/
def Format.bytes : Format → Nat
  | .opcode => 1
  | .v5 => 1
  | .rgb555 => 2
  | .pixb => 1
  | .flatpix => 3
  | .idx4 => 1
  | .ctrlword => 4

/-- The number whose least significant byte comes first (R60; for the words of the control formats and the functions'
inputs, which the spec gives no byte form, DESIGN CHOICE, log 22). -/
def leValue : List Byte → Nat
  | [] => 0
  | b :: bs => b.toNat + 256 * leValue bs

/-- The n low bytes of a number, least significant first (as leValue; log 22). -/
def leBytes : Nat → Nat → List Byte
  | 0, _ => []
  | n + 1, v => BitVec.ofNat 8 v :: leBytes n (v / 256)

/-- The word of format f that a number is (its low bits). -/
def CodeWord.ofNat (f : Format) (v : Nat) : CodeWord :=
  match f with
  | .opcode => .opcode (BitVec.ofNat 4 v)
  | .v5 => .fn (.v5 (BitVec.ofNat 5 v))
  | .rgb555 => .fn (.rgb555 (BitVec.ofNat 16 v))
  | .pixb => .fn (.pixb (BitVec.ofNat 8 v))
  | .flatpix => .fn (.flatpix (BitVec.ofNat 24 v))
  | .idx4 => .fn (.idx4 (BitVec.ofNat 4 v))
  | .ctrlword => .ctrlword (BitVec.ofNat 32 v)

/-- The format of a word. -/
def CodeWord.format : CodeWord → Format
  | .opcode _ => .opcode
  | .ctrlword _ => .ctrlword
  | .fn (.v5 _) => .v5
  | .fn (.rgb555 _) => .rgb555
  | .fn (.pixb _) => .pixb
  | .fn (.flatpix _) => .flatpix
  | .fn (.idx4 _) => .idx4

/-- A word as a number. -/
def CodeWord.toNat : CodeWord → Nat
  | .opcode c => c.toNat
  | .ctrlword v => v.toNat
  | .fn (.v5 v) => v.toNat
  | .fn (.rgb555 p) => p.toNat
  | .fn (.pixb b) => b.toNat
  | .fn (.flatpix n) => n.toNat
  | .fn (.idx4 i) => i.toNat

/-- Decoding from bytes, in the format the bytes stand in: the length must be the format's and no bit above its width
may be set. Total on any bytes. DESIGN CHOICE (log 22): the spec gives OPCODE, V5, IDX4, FLATPIX and CTRLWORD no byte form;
whole bytes, least significant first, and the refusal of bits above the width are the model's. -/
def decodeBytes (f : Format) (bs : List Byte) : Except DecodeError Instr :=
  if bs.length ≠ f.bytes then .error (.wrongLength f)
  else if 2 ^ f.bits ≤ leValue bs then .error (.bitsAboveWidth f)
  else decode (CodeWord.ofNat f (leValue bs))

/-- The bytes of an operation's word, with the format they stand in (log 22). -/
def encodeBytes (i : Instr) : Format × List Byte :=
  ((encode i).format, leBytes (encode i).format.bytes (encode i).toNat)

/-- The code word a table word of nbits bits stands for (log 8). The table's rows overlap in their bits, so the number
of bits picks the format: 16 RGB555, 24 FLATPIX, 32 CTRLWORD, 5 V5, at most 4 OPCODE. Eight bits are an OPCODE when the
high nibble is zero and otherwise a PIXB, the table's one format of eight bits. -/
def tableWord (nbits w : Nat) : Option CodeWord :=
  if 2 ^ nbits ≤ w then none
  else
    match nbits with
    | 4 => some (CodeWord.ofNat .opcode w)
    | 5 => some (CodeWord.ofNat .v5 w)
    | 8 => if w < 16 then some (CodeWord.ofNat .opcode w) else some (CodeWord.ofNat .pixb w)
    | 16 => some (CodeWord.ofNat .rgb555 w)
    | 24 => some (CodeWord.ofNat .flatpix w)
    | 32 => some (CodeWord.ofNat .ctrlword w)
    | _ => none

/-- The instruction the decoder reads from a word of the opcode table. -/
def decodeTableWord (nbits w : Nat) : Option Instr :=
  match tableWord nbits w with
  | none => none
  | some cw =>
    match decode cw with
    | .ok i => some i
    | .error _ => none

end Sys2Proof
end

