-- ==== Sys2Proof/Config.lean ====
section
/-! DEFINITION. The parameters of R8 (00_scope.md) with the values this hardware takes, and the model's free values (log 3, log 10, log 12). -/

namespace Sys2Proof.Config

/-! The numbers DOC0 prints (R8). -/

/-- HDR_SIZE: byte offset of the first packed pixel byte. -/
@[simp, reducible] def hdrSize : Nat := 24

/-- OFF_WIDTH: byte offset of the width field. -/
@[simp, reducible] def offWidth : Nat := 8

/-- OFF_HEIGHT: byte offset of the height field. -/
@[simp, reducible] def offHeight : Nat := 12

/-- MAX_DIM: greatest legal width and height. -/
@[simp, reducible] def maxDim : Int := 4096

/-- PAL_ENTRIES. -/
@[simp, reducible] def palEntries : Nat := 16

/-- PAL_BYTES: the palette region is the last 32 bytes of the stream. -/
@[simp, reducible] def palBytes : Nat := 32

/-- OUT_HDR_SIZE: bytes of output header. -/
@[simp, reducible] def outHdrSize : Nat := 54

/-- OUT_INFO_SIZE: value of the info-header size field. -/
@[simp, reducible] def outInfoSize : Nat := 40

/-- OUT_BPP: bits per output pixel. -/
@[simp, reducible] def outBpp : Nat := 24

/-- The least value SRC_CAP may take (R8: "OPEN (≥ 8 388 664)"). -/
@[simp, reducible] def srcCapLeast : Nat := 8388664

/-- OPEN (R8, D16): by how much this implementation's SRC_CAP exceeds the least. A free value (log 12). -/
opaque srcCapBeyondLeast : Nat

/-- Free value (log 3): the n-th word an accepted START leaves in WIDTH or HEIGHT. -/
opaque freeDimension : Nat → Word

/-- Free value (log 3): the n-th 25-bit number an accepted START leaves in NPIX. -/
opaque freeNpix : Nat → BitVec 25

/-- Free value (log 3): the n-th 24-bit number an accepted START leaves in DATASIZE. -/
opaque freeDataSize : Nat → BitVec 24

/-- Free value (log 3): the n-th palette contents an accepted START leaves in PAL. -/
opaque freePalette : Nat → Vector RGB 16

/-- Free value (log 10): the 25-bit number SIZE leaves in NPIX when the product of its operands is negative. -/
opaque freeProduct : Word → Word → BitVec 25

end Sys2Proof.Config

namespace Sys2Proof

/-- The parameters of R8 that an implementation or a variant may set. The operations take them as an argument, so
that what a rule says for another value (OVERLAP_CHECK = 0, R145) is in the model too. -/
structure Params where
  /-- OVERLAP_CHECK = 1 (conflict C3). -/
  overlapCheck : Bool
  /-- MISSING_INDEX: the index a look-up past the end of IDX yields (R161). -/
  missingIndex : Index
  /-- KEY_COLOR: the colour emitted for KEY_INDEX = 0 (R162). -/
  keyColor : RGB
  /-- SIZEIMAGE_FIELD: the image-size field of the output header (R96, D15). -/
  sizeImageField : Nat
  /-- SRC_CAP: bytes of source memory provided (D16). -/
  srcCap : Nat
deriving DecidableEq, Repr

/-- The values of R8 for this hardware. -/
def Params.hw : Params where
  overlapCheck := true
  missingIndex := 0
  keyColor := { r := 0, g := 0, b := 0 }
  sizeImageField := 0
  srcCap := Config.srcCapLeast + Config.srcCapBeyondLeast

end Sys2Proof
end

