-- ==== Sys2Proof/Machine/State.lean ====
section
/-! DEFINITION. The state of the core (10_state.md), the inputs of the machine, the reasons a step stops, and the state after reset (R40). -/

namespace Sys2Proof.Machine

/-- A memory space's contents: (address, element) pairs, addresses strictly rising. An address that is not listed holds
no value: the spec's `none` (R10, log 4). -/
abbrev Memory (w : Nat) := List (Nat × BitVec w)

/-- The four memory spaces (R34). -/
inductive Space where
  | src
  | pix
  | idx
  | out
deriving DecidableEq, Repr

/-- ERRCODE (R27): an enumeration of the values the core produces, as R108 asks; codes 1, 6 and 7 are not among them. -/
inductive ErrCode where
  | noError
  | invalidDimensions
  | truncatedData
  | truncatedPalette
  | writeError
deriving DecidableEq, Repr

/-- A move of the host (R186). START is `writeCsr 0 v` with bit 0 of v set (R180). -/
inductive HostMove where
  | writeSrc (a : Nat) (b : Byte)
  | writeCsr (n : Nat) (v : Word)
  | readCsr (n : Nat)
  | readOut (a : Nat)
  | assertReset
deriving DecidableEq, Repr

/-- What the outside does next (log 5): a move of the host, a turn left to the core, a new answer of the sink (log 6), or
a word put to one of the combinational functions (the model's own, log 7). -/
inductive Input where
  | host (m : HostMove)
  | core
  | sink (ok : Bool)
  | eval (w : FnWord)
deriving DecidableEq, Repr

/-- What the last host read returned (log 18). -/
inductive HostReply where
  | nothing
  | word (v : Word)
  | byte (b : Byte)
deriving DecidableEq, Repr

/-- What a combinational function gave when put to use by itself (log 7). -/
inductive FnResult where
  | nothing
  /-- SCALE5. -/
  | channel (c : Byte)
  /-- CVT555, RESOLVE. -/
  | colour (c : RGB)
  /-- UNPK: first pixel, second pixel. -/
  | pair (first second : Index)
  /-- IDXAT. -/
  | index (i : Index)
deriving DecidableEq, Repr

/-- The state: the spec's (R20 to R38), then the inputs and the model's own fields. -/
structure State where
  /-- PHASE, the program counter (R24). -/
  phase : Phase
  /-- ERRCODE (R27). -/
  errCode : ErrCode
  /-- HDR_VALID (R26). -/
  hdrValid : Bool
  /-- WIDTH, 32 bits signed (R20, R21). -/
  width : Word
  /-- HEIGHT, 32 bits signed (R20, R21). -/
  height : Word
  /-- NPIX (R20; a natural number as R20 allows, log 9). -/
  npix : Nat
  /-- DATASIZE (R20, R22). -/
  dataSize : Nat
  /-- IDX_LEN (R20, R23). -/
  idxLen : Nat
  /-- OUT_LEN (R20). -/
  outLen : Nat
  /-- SRC_LEN, 32 bits unsigned (R20, R31). -/
  srcLen : Word
  /-- PAL, the palette look-up table (R33). -/
  pal : Vector RGB 16
  /-- SRC, the source stream (R35). -/
  src : Memory 8
  /-- PIX, the packed pixel buffer (R36). -/
  pix : Memory 8
  /-- IDX, the pixel index buffer, in 4-bit elements (R37). -/
  idx : Memory 4
  /-- OUT, the output byte stream (R38). -/
  out : Memory 8
  /-- The sink's present answer to `sink_ok` (R165): an input, not state of the core (log 6). -/
  sinkOk : Bool
  /-- What the outside does next, oldest first (log 5). -/
  inputs : List Input
  /-- What the last host read returned (log 18). -/
  hostReply : HostReply
  /-- What the last combinational function run by itself gave (log 7). -/
  fnOut : FnResult
  /-- How many times START has drawn free values (log 3). -/
  freeCount : Nat
deriving DecidableEq, Repr

/-- Why the machine stops without a next state. The hardware's own errors are not here: they are `raise` (R210), which
gives a next state. -/
inductive Fault where
  /-- A read of a memory cell that holds no value (R10, R232, U19). Raised by RDHDR, LDPIX, LDPAL on SRC, UNPACK on PIX,
  IDXAT and EMITPIX on IDX, and a host read of OUT. Safe: the spec gives such a read no meaning, and under the launch
  premises none happens (R233). -/
  | unwrittenCell (sp : Space) (a : Nat)
  /-- An address SRC_LEN − 32 + 2i below 0: only LDPAL with OVERLAP_CHECK = 0 and SRC_LEN < 32, which no run reaches
  (R140, log 16). Safe: no space has such an address (R34). -/
  | addressBelowZero (sp : Space)
deriving DecidableEq, Repr

/-- A step that has no meaning. -/
inductive Refusal where
  /-- An instruction the model gives no meaning yet: an arm of exec. No arm uses it. Safe. -/
  | notModelled (mnemonic : String)
  /-- A host read of CSR3 or CSR4 while HDR_VALID = 0: "refused" (R32, R186). Raised by the host's move. Safe. -/
  | csrHoldsNoValue (n : Nat)
  /-- A host read of OUT[a] unless DONE = 1 and a < OUT_LEN: "refused" (R38, R186, R236). Raised by the host's move.
  Safe. -/
  | outNotReadable (a : Nat)
  /-- A host write of SRC[a] with a ≥ SRC_CAP: no move of R186. Raised by the host's move. Safe. -/
  | beyondSrcCap (a : Nat)
deriving DecidableEq, Repr

/-- The state after reset (R40). WIDTH, HEIGHT, NPIX, DATASIZE and PAL, which R40 gives no value, hold zeros (log 2);
the inputs and the model's own fields are empty, sinkOk is true (log 6). -/
def State.reset : State where
  phase := .idle
  errCode := .noError
  hdrValid := false
  width := 0
  height := 0
  npix := 0
  dataSize := 0
  idxLen := 0
  outLen := 0
  srcLen := 0
  pal := Vector.replicate 16 { r := 0, g := 0, b := 0 }
  src := []
  pix := []
  idx := []
  out := []
  sinkOk := true
  inputs := []
  hostReply := .nothing
  fnOut := .nothing
  freeCount := 0

end Sys2Proof.Machine
end

