-- ==== Sys2Proof/Machine/Ops.lean ====
section
/-! DEFINITION. The shared operations: memory cells and MemRead, loops, Emit (R10), `raise` (R210) and the start of a run (R180). -/

namespace Sys2Proof.Machine

/-- One element of a memory; `none` where nothing has been written (R10). -/
def Memory.read {w : Nat} : Memory w → Nat → Option (BitVec w)
  | [], _ => none
  | (k, v) :: m, a => if a = k then some v else Memory.read m a

/-- Write one element, `MemWrite(M, a, 1, v)` (R10): the one width the rules write (R64). It keeps the addresses strictly rising. -/
def Memory.write {w : Nat} : Memory w → Nat → BitVec w → Memory w
  | [], a, b => [(a, b)]
  | (k, v) :: m, a, b =>
    if a < k then (a, b) :: (k, v) :: m
    else if a = k then (a, b) :: m
    else (k, v) :: Memory.write m a b

/-- The canonical form of a memory: addresses strictly rising. Every entry holds a value and an unlisted address holds
none, so no entry equals what an unlisted address reads as. -/
def Memory.wf {w : Nat} : Memory w → Bool
  | [] => true
  | (k, _) :: m =>
    (match m with
      | [] => true
      | (k', _) :: _ => decide (k < k')) && Memory.wf m

/-- Read one element of a space for the core: no value, no meaning (U19, log 4). -/
def readCell {w : Nat} (sp : Space) (m : Memory w) (a : Nat) : Except Fault (BitVec w) :=
  match Memory.read m a with
  | some v => .ok v
  | none => .error (.unwrittenCell sp a)

/-- `MemRead(M, a, n)`: the unsigned number whose least significant byte is at a (R10, R60). -/
def memRead (sp : Space) (m : Memory 8) (a : Nat) : Nat → Except Fault Nat
  | 0 => .ok 0
  | n + 1 =>
    match readCell sp m a with
    | .error e => .error e
    | .ok b =>
      match memRead sp m (a + 1) n with
      | .error e => .error e
      | .ok v => .ok (b.toNat + 256 * v)

/-- `for k in start .. start + count − 1`, ascending (R10), with a body that may stop. -/
def forUp {α : Type} (body : Nat → α → Except Fault α) : (count start : Nat) → α → Except Fault α
  | 0, _, x => .ok x
  | n + 1, k, x =>
    match body k x with
    | .error e => .error e
    | .ok y => forUp body n (k + 1) y

/-- `for y in count − 1 downto 0` (R10), with a body that may stop. -/
def forDown {α : Type} (body : Nat → α → Except Fault α) : (count : Nat) → α → Except Fault α
  | 0, x => .ok x
  | n + 1, x =>
    match body n x with
    | .error e => .error e
    | .ok y => forDown body n y

/-- `pc <- p`: the end of an operation that raises nothing (R10, R24). -/
def goto (p : Phase) (s : State) : State := { s with phase := p }

/-- The end of an operation whose work may have met a cell without value: its next state, at phase p, or the fault,
with nothing of the work kept (log 19). -/
def finish (p : Phase) : Except Fault State → Host.Outcome State Fault Refusal
  | .ok s => .next (goto p s)
  | .error e => .fault e

/-- `raise E`, exactly R210: ERRCODE <- code of E, OUT_LEN <- 0, pc <- FAIL, and everything else left as it is. This is
taking an exception on this hardware. -/
def raise (e : ErrCode) (s : State) : State :=
  { s with errCode := e, outLen := 0, phase := .fail }

/-- What an accepted START does (R180), the only exit from FAIL but reset (R211): control state and lengths cleared, the
run-owned memories emptied, SRC and SRC_LEN kept, PHASE at CHKLEN. WIDTH, HEIGHT, NPIX, DATASIZE and PAL become `none`:
each holds a fresh free value (log 3). -/
def startRun (s : State) : State :=
  { s with
    phase := .chklen
    errCode := .noError
    hdrValid := false
    outLen := 0
    idxLen := 0
    width := Config.freeDimension (2 * s.freeCount)
    height := Config.freeDimension (2 * s.freeCount + 1)
    npix := (Config.freeNpix s.freeCount).toNat
    dataSize := (Config.freeDataSize s.freeCount).toNat
    pal := Config.freePalette s.freeCount
    pix := []
    idx := []
    out := []
    freeCount := s.freeCount + 1 }

/-- What asserting reset does (R230): the state of R40. The inputs still to come, the sink's answer, the host's last
reply and the model's other own fields are not the core's and stay (log 17). -/
def assertReset (s : State) : State :=
  { State.reset with
    sinkOk := s.sinkOk
    inputs := s.inputs
    hostReply := s.hostReply
    fnOut := s.fnOut
    freeCount := s.freeCount }

/-- `Emit(b)`: append one byte to OUT (R10). -/
def emit (b : Byte) (s : State) : State :=
  { s with out := Memory.write s.out s.outLen b, outLen := s.outLen + 1 }

/-- Byte number i of a number, v[8i+7 : 8i] (R10). -/
def byteOf (v i : Nat) : Byte := BitVec.ofNat 8 (v / 256 ^ i)

/-- `Emit16(v)` (R10). -/
def emit16 (v : Nat) (s : State) : State := emit (byteOf v 1) (emit (byteOf v 0) s)

/-- `Emit32(v)` (R10). -/
def emit32 (v : Nat) (s : State) : State :=
  emit (byteOf v 3) (emit (byteOf v 2) (emit (byteOf v 1) (emit (byteOf v 0) s)))

/-- The three bytes of an output pixel, red, green, blue (R95). -/
def emitRGB (c : RGB) (s : State) : State := emit c.b (emit c.g (emit c.r s))

end Sys2Proof.Machine
end

