-- ==== Sys2Proof/Machine/Operands.lean ====
section
/-! DEFINITION. Operand assembly: the fields of the formats (R91 to R93, R99 to R104). -/

namespace Sys2Proof.Machine

/-- `s32(v)`: the two's-complement reading of a 32-bit word (R10, log 14). -/
@[simp, reducible] def s32 (v : Word) : Int := v.toInt

/-- `FLD32(a)`: the 32-bit pattern of the signed little-endian field at byte offset a of SRC (R99); WIDTH and HEIGHT
hold the pattern and `s32` reads it. -/
def fld32 (src : Memory 8) (a : Nat) : Except Fault Word :=
  match memRead .src src a 4 with
  | .ok v => .ok (BitVec.ofNat 32 v)
  | .error e => .error e

/-- `PALWORD(i)`: the 16-bit little-endian word number i of the palette region, SRC_LEN − 32 + 2i (R101, R67). -/
def palWord (src : Memory 8) (srcLen i : Nat) : Except Fault (BitVec 16) :=
  if srcLen < Config.palBytes then .error (.addressBelowZero .src)
  else
    match memRead .src src (srcLen - Config.palBytes + 2 * i) 2 with
    | .ok v => .ok (BitVec.ofNat 16 v)
    | .error e => .error e

/-- `LO(b) = b & 0xF` (R102). -/
def lo (b : Byte) : Index := BitVec.ofNat 4 (b &&& 0xF).toNat

/-- `HI(b) = (b >> 4) & 0xF` (R102). -/
def hi (b : Byte) : Index := BitVec.ofNat 4 ((b >>> 4) &&& 0xF).toNat

/-- `R5(p) = p[14:10]` (R103). -/
def r5 (p : BitVec 16) : BitVec 5 := p.extractLsb' 10 5

/-- `G5(p) = p[9:5]` (R103). -/
def g5 (p : BitVec 16) : BitVec 5 := p.extractLsb' 5 5

/-- `B5(p) = p[4:0]` (R103). -/
def b5 (p : BitVec 16) : BitVec 5 := p.extractLsb' 0 5

/-- The flat pixel number of column x of row y (R104). -/
def flatPixel (width y x : Nat) : Nat := y * width + x

/-- The number of rows or columns a signed dimension gives a loop: none when it is not positive (R10: a loop whose last
value lies below its first runs zero times). -/
def loopCount (dim : Word) : Nat := (s32 dim).toNat

end Sys2Proof.Machine
end

