-- ==== Sys2Proof/Machine/ColorDecoder.lean ====
section
/-! DEFINITION. The colour decoder (40_color_decoder.md): SCALE5 and CVT555. -/

namespace Sys2Proof.Machine

/-- `SCALE5(v) = (v × 255) div 31` (R130). The quotient is at most 255. -/
def scale5 (v : BitVec 5) : Byte := BitVec.ofNat 8 (v.toNat * 255 / 31)

/-- `CVT555(p)`: the three channels scaled, bit 15 dropped (R131). -/
def cvt555 (p : BitVec 16) : RGB := { r := scale5 (r5 p), g := scale5 (g5 p), b := scale5 (b5 p) }

/-- SCALE5 put to use by itself (R130, log 7). -/
def execScale5 (v : BitVec 5) (s : State) : Host.Outcome State Fault Refusal :=
  .next { s with fnOut := .channel (scale5 v) }

/-- CVT555 put to use by itself (R131, log 7). -/
def execCvt555 (p : BitVec 16) (s : State) : Host.Outcome State Fault Refusal :=
  .next { s with fnOut := .colour (cvt555 p) }

end Sys2Proof.Machine
end

