-- ==== Sys2Proof/Machine/TextureParser.lean ====
section
/-! DEFINITION. The texture parser (41_texture_parser.md): CHKLEN, RDHDR, CHKDIM, SIZE, LDPIX, LDPAL, UNPK, UNPACK. -/

namespace Sys2Proof.Machine

/-- CHKLEN (R140): a stream too short to hold a palette raises TruncatedPalette. -/
def execChklen (s : State) : Host.Outcome State Fault Refusal :=
  if s.srcLen.toNat < Config.palBytes then .next (raise .truncatedPalette s)
  else .next (goto .rdhdr s)

/-- The work of RDHDR: WIDTH <- FLD32(8), HEIGHT <- FLD32(12), HDR_VALID <- 1. -/
def readHeader (s : State) : Except Fault State :=
  match fld32 s.src Config.offWidth with
  | .error e => .error e
  | .ok w =>
    match fld32 s.src Config.offHeight with
    | .error e => .error e
    | .ok h => .ok { s with width := w, height := h, hdrValid := true }

/-- RDHDR (R141). -/
def execRdhdr (s : State) : Host.Outcome State Fault Refusal := finish .chkdim (readHeader s)

/-- CHKDIM (R142): signed comparisons (R100). -/
def execChkdim (s : State) : Host.Outcome State Fault Refusal :=
  if s32 s.width ≤ 0 ∨ Config.maxDim < s32 s.width ∨ s32 s.height ≤ 0 ∨ Config.maxDim < s32 s.height then
    .next (raise .invalidDimensions s)
  else .next (goto .size s)

/-- WIDTH × HEIGHT, exact (R143, R133). A negative product, which no run reaches, has no unsigned value: a free value
(log 10). -/
def pixelCount (w h : Word) : Nat :=
  if 0 ≤ s32 w * s32 h then (s32 w * s32 h).toNat else (Config.freeProduct w h).toNat

/-- SIZE (R143). -/
def execSize (s : State) : Host.Outcome State Fault Refusal :=
  .next (goto .ldpix { s with
    npix := pixelCount s.width s.height
    dataSize := pixelCount s.width s.height / 2 })

/-- One round of LDPIX's loop: PIX[k] <- SRC[24 + k] (R144). -/
def copyPixByte (k : Nat) (s : State) : Except Fault State :=
  match readCell .src s.src (Config.hdrSize + k) with
  | .error e => .error e
  | .ok b => .ok { s with pix := Memory.write s.pix k b }

/-- LDPIX (R144): the check comes before the first copy. -/
def execLdpix (s : State) : Host.Outcome State Fault Refusal :=
  if s.srcLen.toNat < Config.hdrSize + s.dataSize then .next (raise .truncatedData s)
  else finish .ldpal (forUp copyPixByte s.dataSize 0 s)

/-- One round of LDPAL's loop: PAL[i] <- CVT555(PALWORD(i)) (R145). -/
def loadPalEntry (i : Nat) (s : State) : Except Fault State :=
  match palWord s.src s.srcLen.toNat i with
  | .error e => .error e
  | .ok p => .ok { s with pal := s.pal.setIfInBounds i (cvt555 p) }

/-- The header and pixel region overlaps the palette region: 24 + DATASIZE > SRC_LEN − 32 (R69), written without the
subtraction. -/
abbrev regionsOverlap (s : State) : Prop := s.srcLen.toNat < Config.hdrSize + s.dataSize + Config.palBytes

/-- LDPAL for any value of OVERLAP_CHECK (R145): the check comes before the first load. -/
def ldpalWith (c : Params) (s : State) : Host.Outcome State Fault Refusal :=
  if c.overlapCheck = true ∧ regionsOverlap s then .next (raise .truncatedPalette s)
  else finish .unpack (forUp loadPalEntry Config.palEntries 0 s)

/-- LDPAL (R145). -/
def execLdpal (s : State) : Host.Outcome State Fault Refusal := ldpalWith Params.hw s

/-- `UNPK(b)`: first pixel in the low nibble, second in the high one (R146). -/
def unpk (b : Byte) : Index × Index := (lo b, hi b)

/-- `PACK(a, c) = a + 16 × c`, the inverse of UNPK (R146). -/
def pack (a c : Index) : Byte := BitVec.ofNat 8 (a.toNat + 16 * c.toNat)

/-- UNPK put to use by itself (R146, log 7). -/
def execUnpk (b : Byte) (s : State) : Host.Outcome State Fault Refusal :=
  .next { s with fnOut := .pair (unpk b).1 (unpk b).2 }

/-- One round of UNPACK's loop: IDX[2k], IDX[2k + 1] <- UNPK(PIX[k]) (R147). -/
def unpackByte (k : Nat) (s : State) : Except Fault State :=
  match readCell .pix s.pix k with
  | .error e => .error e
  | .ok b =>
    .ok { s with idx := Memory.write (Memory.write s.idx (2 * k) (unpk b).1) (2 * k + 1) (unpk b).2 }

/-- `x[IDX_LEN] <- 2 × x[DATASIZE]`, the last assignment of UNPACK (R147, R23). -/
def setIdxLen (s : State) : State := { s with idxLen := 2 * s.dataSize }

/-- The work of UNPACK. -/
def unpackAll (s : State) : Except Fault State :=
  match forUp unpackByte s.dataSize 0 s with
  | .error e => .error e
  | .ok t => .ok (setIdxLen t)

/-- UNPACK (R147). -/
def execUnpack (s : State) : Host.Outcome State Fault Refusal := finish .emithdr (unpackAll s)

end Sys2Proof.Machine
end

