-- ==== Sys2Proof/Machine/BitmapEncoder.lean ====
section
/-! DEFINITION. The bitmap encoder (42_bitmap_encoder.md): EMITHDR, IDXAT, RESOLVE, EMITPIX, COMMIT. -/

namespace Sys2Proof.Machine

/-- The bytes EMITHDR emits, field by field in the order of R160 (layout R96, log 15). -/
def emitHeader (c : Params) (s : State) : State :=
  let s := emit 0x4D (emit 0x42 s)
  let s := emit32 (Config.outHdrSize + 3 * s.npix) s
  let s := emit16 0 (emit16 0 s)
  let s := emit32 Config.outInfoSize (emit32 Config.outHdrSize s)
  let s := emit32 s.width.toNat s
  let s := emit32 s.height.toNat s
  let s := emit16 Config.outBpp (emit16 1 s)
  let s := emit32 c.sizeImageField (emit32 0 s)
  let s := emit32 0 (emit32 0 s)
  emit32 0 (emit32 0 s)

/-- EMITHDR for any value of SIZEIMAGE_FIELD (R160). -/
def emithdrWith (c : Params) (s : State) : Host.Outcome State Fault Refusal := .next (goto .emitpix (emitHeader c s))

/-- EMITHDR (R160). -/
def execEmithdr (s : State) : Host.Outcome State Fault Refusal := emithdrWith Params.hw s

/-- `IDXAT(n)`: IDX[n] below IDX_LEN, MISSING_INDEX past it (R161). -/
def idxAt (c : Params) (n : Nat) (s : State) : Except Fault Index :=
  if n < s.idxLen then readCell .idx s.idx n else .ok c.missingIndex

/-- IDXAT put to use by itself (R161, log 7). -/
def execIdxat (n : BitVec 24) (s : State) : Host.Outcome State Fault Refusal :=
  match idxAt Params.hw n.toNat s with
  | .ok i => .next { s with fnOut := .index i }
  | .error e => .fault e

/-- `RESOLVE(i)`: KEY_COLOR for index 0, otherwise PAL[i] (R162). -/
def resolve (c : Params) (i : Index) (pal : Vector RGB 16) : RGB :=
  if i = 0 then c.keyColor else pal[i.toNat]'(by have := i.isLt; omega)

/-- RESOLVE put to use by itself (R162, log 7). -/
def execResolve (i : Index) (s : State) : Host.Outcome State Fault Refusal :=
  .next { s with fnOut := .colour (resolve Params.hw i s.pal) }

/-- One pixel of EMITPIX: column x of row y (R163). -/
def emitPixel (c : Params) (y x : Nat) (s : State) : Except Fault State :=
  match idxAt c (flatPixel (loopCount s.width) y x) s with
  | .error e => .error e
  | .ok i => .ok (emitRGB (resolve c i s.pal) s)

/-- One row of EMITPIX, left to right (R163). -/
def emitRow (c : Params) (y : Nat) (s : State) : Except Fault State :=
  forUp (emitPixel c y) (loopCount s.width) 0 s

/-- EMITPIX for any value of MISSING_INDEX and KEY_COLOR (R163): the last image row first. -/
def emitpixWith (c : Params) (s : State) : Host.Outcome State Fault Refusal :=
  finish .commit (forDown (emitRow c) (loopCount s.height) s)

/-- EMITPIX (R163). -/
def execEmitpix (s : State) : Host.Outcome State Fault Refusal := emitpixWith Params.hw s

/-- COMMIT (R165): the sink's answer is sampled once, here. -/
def execCommit (s : State) : Host.Outcome State Fault Refusal :=
  if s.sinkOk then .next (goto .done s) else .next (raise .writeError s)

end Sys2Proof.Machine
end

