-- ==== Sys2Proof/Machine/Flags.lean ====
section
/-! DEFINITION. The status flags (R25), the codes of ERRCODE (R200), and the STATUS word (R30). -/

namespace Sys2Proof.Machine

/-- The code of an error (R200). -/
def ErrCode.code : ErrCode → BitVec 3
  | .noError => 0
  | .invalidDimensions => 2
  | .truncatedData => 3
  | .truncatedPalette => 4
  | .writeError => 5

/-- The code set aside for `OpenError`, which the core never raises (R205). -/
def openErrorCode : BitVec 3 := 1

/-- BUSY = (1 ≤ PHASE ≤ 10) (R25). -/
def busy (s : State) : Bool := decide (1 ≤ s.phase.code.toNat) && decide (s.phase.code.toNat ≤ 10)

/-- DONE = (PHASE = 11) (R25). -/
def doneFlag (s : State) : Bool := decide (s.phase.code.toNat = 11)

/-- FAIL = (PHASE = 12) (R25). -/
def failFlag (s : State) : Bool := decide (s.phase.code.toNat = 12)

/-- A bit as a 32-bit number. -/
def bitWord (b : Bool) : Word := if b then 1 else 0

/-- CSR1 STATUS (R30): PHASE in 3:0, BUSY 4, DONE 5, FAIL 6, HDR_VALID 7, ERRCODE in 10:8, the rest 0. -/
def status (s : State) : Word :=
  s.phase.code.setWidth 32 ||| (bitWord (busy s) <<< 4) ||| (bitWord (doneFlag s) <<< 5)
    ||| (bitWord (failFlag s) <<< 6) ||| (bitWord s.hdrValid <<< 7) ||| (s.errCode.code.setWidth 32 <<< 8)

end Sys2Proof.Machine
end

