-- ==== Sys2Proof/Machine/Sequencer.lean ====
section
/-! DEFINITION. The halt states and the host command START (43_sequencer_and_host.md). -/

namespace Sys2Proof.Machine

/-- IDLE (R182): "the core has no enabled step; PHASE stays 0": nothing changes (log 1). -/
def execIdle (s : State) : Host.Outcome State Fault Refusal := .next s

/-- DONE (R183): "the core has no enabled step; PHASE stays": nothing changes (log 1). -/
def execDone (s : State) : Host.Outcome State Fault Refusal := .next s

/-- FAIL (R183): "the core has no enabled step; PHASE stays": nothing changes (log 1). -/
def execFail (s : State) : Host.Outcome State Fault Refusal := .next s

/-- START (R180): accepted when BUSY = 0, dropped silently when BUSY = 1. Bits 31:1 of the word written are ignored, and
with bit 0 = 0 it is no START and nothing happens (R29). -/
def execStart (ctrl : Word) (s : State) : Host.Outcome State Fault Refusal :=
  if ctrl.getLsbD 0 && !busy s then .next (startRun s) else .next s

end Sys2Proof.Machine
end

