-- ==== Sys2Proof/Machine/Dispatch.lean ====
section
/-! DEFINITION. exec: one arm per operation of the table, each one call of its meaning. -/

namespace Sys2Proof.Machine

def exec (i : Instr) (s : State) : Host.Outcome State Fault Refusal :=
  match i with
  | .idle => Sys2Proof.Machine.execIdle s
  | .chklen => Sys2Proof.Machine.execChklen s
  | .rdhdr => Sys2Proof.Machine.execRdhdr s
  | .chkdim => Sys2Proof.Machine.execChkdim s
  | .size => Sys2Proof.Machine.execSize s
  | .ldpix => Sys2Proof.Machine.execLdpix s
  | .ldpal => Sys2Proof.Machine.execLdpal s
  | .unpack => Sys2Proof.Machine.execUnpack s
  | .emithdr => Sys2Proof.Machine.execEmithdr s
  | .emitpix => Sys2Proof.Machine.execEmitpix s
  | .commit => Sys2Proof.Machine.execCommit s
  | .done => Sys2Proof.Machine.execDone s
  | .fail => Sys2Proof.Machine.execFail s
  | .scale5 v => Sys2Proof.Machine.execScale5 v s
  | .cvt555 p => Sys2Proof.Machine.execCvt555 p s
  | .unpk b => Sys2Proof.Machine.execUnpk b s
  | .idxat n => Sys2Proof.Machine.execIdxat n s
  | .resolve k => Sys2Proof.Machine.execResolve k s
  | .start ctrl => Sys2Proof.Machine.execStart ctrl s

end Sys2Proof.Machine
end

