-- ==== Sys2Proof/Machine/HostPort.lean ====
section
/-! DEFINITION. The host's moves (R186), where the next step's operation comes from, and what an input that is no operation does. -/

namespace Sys2Proof.Machine

/-- A host read of CSR n (R28 to R32). -/
def readCsr (n : Nat) (s : State) : Except Refusal Word :=
  match n with
  | 1 => .ok (status s)
  | 2 => .ok s.srcLen
  | 3 => if s.hdrValid then .ok s.width else .error (.csrHoldsNoValue 3)
  | 4 => if s.hdrValid then .ok s.height else .error (.csrHoldsNoValue 4)
  | 5 => .ok (BitVec.ofNat 32 s.outLen)
  | _ => .ok 0

/-- A host write of a CSR other than CSR0 (R28, R31, R186): only CSR2 stores, and only while BUSY = 0. -/
def writeCsr (n : Nat) (v : Word) (s : State) : State :=
  if n = 2 && !busy s then { s with srcLen := v } else s

/-- A host write of SRC[a] (R35, R186): ignored while BUSY = 1. -/
def writeSrc (c : Params) (a : Nat) (b : Byte) (s : State) : Host.Outcome State Fault Refusal :=
  if a < c.srcCap then
    if busy s then .next s else .next { s with src := Memory.write s.src a b }
  else .refused (.beyondSrcCap a)

/-- A host read of OUT[a] (R38, R236): refused unless DONE = 1 and a < OUT_LEN. -/
def readOut (a : Nat) (s : State) : Host.Outcome State Fault Refusal :=
  if doneFlag s = true ∧ a < s.outLen then
    match readCell .out s.out a with
    | .ok b => .next { s with hostReply := .byte b }
    | .error e => .fault e
  else .refused (.outNotReadable a)

/-- What the next step does. -/
inductive Turn where
  | operation (w : CodeWord)
  | move (m : HostMove)
  | sink (ok : Bool)
deriving DecidableEq, Repr

/-- A move of the host (R186), but for the write of CSR0, which is a command and runs as an operation. -/
def hostMove (m : HostMove) (s : State) : Host.Outcome State Fault Refusal :=
  match m with
  | .writeSrc a b => writeSrc Params.hw a b s
  | .writeCsr n v => .next (writeCsr n v s)
  | .readCsr n =>
    match readCsr n s with
    | .ok v => .next { s with hostReply := .word v }
    | .error r => .refused r
  | .readOut a => readOut a s
  | .assertReset => .next (assertReset s)

/-- The input is used up. -/
def withInputs (s : State) (rest : List Input) : State := { s with inputs := rest }

/-- What the next step does and the state it does it in, the input used up: the operation in PHASE on the core's turn
(R6, R97), with the turn the core's when no input is to come (log 5); the command of a host write of CSR0 (R98); another
move of the host (R186); a new answer of the sink (R165); or a word put to a function (log 7). -/
def nextTurn (s : State) : Turn × State :=
  match s.inputs with
  | [] => (.operation (.opcode s.phase.code), s)
  | .core :: rest => (.operation (.opcode s.phase.code), withInputs s rest)
  | .eval w :: rest => (.operation (.fn w), withInputs s rest)
  | .sink ok :: rest => (.sink ok, withInputs s rest)
  | .host m :: rest =>
    match m with
    | .writeCsr n v => (if n = 0 then .operation (.ctrlword v) else .move m, withInputs s rest)
    | .writeSrc _ _ => (.move m, withInputs s rest)
    | .readCsr _ => (.move m, withInputs s rest)
    | .readOut _ => (.move m, withInputs s rest)
    | .assertReset => (.move m, withInputs s rest)

/-- Run the operation a word selects. A word that selects none does nothing: a CSR0 write with bit 0 = 0 "does nothing"
(R29); an unused PHASE code has "no enabled core step" (U16) and cannot arise (log 20). -/
def runWord (w : CodeWord) (s : State) : Host.Outcome State Fault Refusal :=
  match decode w with
  | .ok i => exec i s
  | .error _ => .next s

/-- The sink's answer changes (log 6). -/
def sinkAnswers (ok : Bool) (s : State) : State := { s with sinkOk := ok }

/-- s with the word placed where the next step takes its operation from (log 13): an OPCODE in PHASE with the turn given
to the core, a CTRLWORD as the host's next move, a function's input as the next word put to it. -/
def placeWord (s : State) (w : CodeWord) : State :=
  match w with
  | .opcode c =>
    match Phase.ofCode c with
    | some p => { s with phase := p, inputs := .core :: s.inputs }
    | none => s
  | .ctrlword v => withInputs s (.host (.writeCsr 0 v) :: s.inputs)
  | .fn f => withInputs s (.eval f :: s.inputs)

end Sys2Proof.Machine
end

