-- ==== Sys2Proof/Machine/Step.lean ====
section
/-! DEFINITION. One step of the machine, and a state about to run a given word. -/

namespace Sys2Proof.Machine

/-- One step: the operation the next input selects, or the host's or the sink's move (R5, R6). -/
def step (s : State) : Host.Outcome State Fault Refusal :=
  match nextTurn s with
  | (.operation w, t) => runWord w t
  | (.move m, t) => hostMove m t
  | (.sink ok, t) => .next (sinkAnswers ok t)

/-- s with the table word w of nbits bits where step takes its next operation from (log 13). A word that stands for none
leaves s as it is. -/
def State.withFetchWord (s : State) (nbits w : Nat) : State :=
  match tableWord nbits w with
  | some cw => placeWord s cw
  | none => s

end Sys2Proof.Machine
end

