-- ==== Sys2Proof/Safety.lean ====
section
/-! DEFINITION. What a good state is (R183, R148, R233), the launch premises (R232), and the result of a run as the spec's formulas give it (R7, R70, R208). -/

namespace Sys2Proof.Machine

/-- PHASE as a number. -/
abbrev phaseNum (s : State) : Nat := s.phase.code.toNat

/-- BUSY = 0: the core is in a halt state (R25). -/
def Halted (s : State) : Prop := s.phase = .idle ∨ s.phase = .done ∨ s.phase = .fail

/-- A legal dimension (R142, R9). -/
def LegalDimension (d : Word) : Prop := 1 ≤ s32 d ∧ s32 d ≤ 4096

/-- Both working registers WIDTH and HEIGHT are legal. -/
def LegalDimensions (s : State) : Prop := LegalDimension s.width ∧ LegalDimension s.height

/-- The launch premise on SRC (R232): every byte of the stream has been written. A stream shorter than 32 bytes needs
none. -/
def SrcLoaded (s : State) : Prop :=
  32 ≤ s.srcLen.toNat → ∀ a, a < s.srcLen.toNat → (Memory.read s.src a).isSome

/-- Every memory is in canonical form. -/
def MemoriesWf (s : State) : Prop :=
  Memory.wf s.src = true ∧ Memory.wf s.pix = true ∧ Memory.wf s.idx = true ∧ Memory.wf s.out = true

/-- Every register fits the width R20 gives it. -/
structure RegistersFit (s : State) : Prop where
  npix : s.npix < 2 ^ 25
  dataSize : s.dataSize < 2 ^ 24
  idxLen : s.idxLen < 2 ^ 25
  outLen : s.outLen < 2 ^ 32

/-- What holds in every state a run can be in, phase by phase (R183, R182, R148, R164, R233). -/
structure RunInv (s : State) : Prop where
  /-- ERRCODE ≠ 0 exactly when PHASE = FAIL (R27). -/
  error : s.errCode = .noError ↔ s.phase ≠ .fail
  /-- HDR_VALID is 0 up to RDHDR (R26) … -/
  headerNotRead : phaseNum s ≤ 2 → s.hdrValid = false
  /-- … and 1 from CHKDIM to DONE (R26, R183) … -/
  headerRead : 3 ≤ phaseNum s → phaseNum s ≤ 11 → s.hdrValid = true
  /-- … and in FAIL unless the error is CHKLEN's (R183, R203). -/
  headerFail : s.phase = .fail → s.errCode ≠ .truncatedPalette → s.hdrValid = true
  /-- The dimensions are legal from SIZE to DONE (R21). -/
  dims : 4 ≤ phaseNum s → phaseNum s ≤ 11 → LegalDimensions s
  /-- NPIX = WIDTH × HEIGHT and DATASIZE = NPIX div 2 from LDPIX to DONE (R143, R22). -/
  sizes : 5 ≤ phaseNum s → phaseNum s ≤ 11 →
    (s.npix : Int) = s32 s.width * s32 s.height ∧ s.dataSize = s.npix / 2
  /-- IDX_LEN is 0 until UNPACK has run (R23). -/
  idxLenZero : phaseNum s ≤ 7 → s.idxLen = 0
  /-- IDX_LEN = 2 × DATASIZE from then on (R23, R148). -/
  idxLenSet : 8 ≤ phaseNum s → phaseNum s ≤ 11 → s.idxLen = 2 * s.dataSize
  /-- OUT_LEN is 0 before EMITHDR and in FAIL (R180, R210). -/
  outLenZero : phaseNum s ≤ 8 ∨ s.phase = .fail → s.outLen = 0
  /-- OUT_LEN is 54 between EMITHDR and EMITPIX (R160, R32). -/
  outLenHeader : s.phase = .emitpix → s.outLen = 54
  /-- OUT_LEN = 54 + 3 × NPIX after EMITPIX (R164, R183). -/
  outLenAll : s.phase = .commit ∨ s.phase = .done → s.outLen = 54 + 3 * s.npix
  /-- SRC_LEN ≥ 32 once CHKLEN has passed (R140, R148). -/
  lenHeader : 2 ≤ phaseNum s → phaseNum s ≤ 10 → 32 ≤ s.srcLen.toNat
  /-- SRC_LEN ≥ 24 + DATASIZE once LDPIX has passed (R144, R148). -/
  lenPixels : 6 ≤ phaseNum s → phaseNum s ≤ 10 → 24 + s.dataSize ≤ s.srcLen.toNat
  /-- SRC_LEN ≥ 56 + DATASIZE once LDPAL has passed (R145, R148). -/
  lenPalette : 7 ≤ phaseNum s → phaseNum s ≤ 10 → 56 + s.dataSize ≤ s.srcLen.toNat
  /-- PIX holds the packed pixel bytes once LDPIX has run (R144, R233). -/
  pixels : 6 ≤ phaseNum s → phaseNum s ≤ 10 → ∀ k, k < s.dataSize →
    ∃ b, Memory.read s.src (24 + k) = some b ∧ Memory.read s.pix k = some b
  /-- PAL holds the decoded palette once LDPAL has run (R148). -/
  palette : 7 ≤ phaseNum s → phaseNum s ≤ 10 → ∀ i (h : i < 16),
    ∃ b0 b1, Memory.read s.src (s.srcLen.toNat - 32 + 2 * i) = some b0 ∧
      Memory.read s.src (s.srcLen.toNat - 31 + 2 * i) = some b1 ∧
      s.pal[i] = cvt555 (BitVec.ofNat 16 (b0.toNat + 256 * b1.toNat))
  /-- IDX holds the low nibble, then the high nibble, of each packed byte once UNPACK has run (R148). -/
  indices : 8 ≤ phaseNum s → phaseNum s ≤ 10 → ∀ k, k < s.dataSize →
    ∃ b, Memory.read s.src (24 + k) = some b ∧
      Memory.read s.idx (2 * k) = some (lo b) ∧ Memory.read s.idx (2 * k + 1) = some (hi b)
  /-- Every byte of OUT below OUT_LEN has been emitted (R38, R233). -/
  outWritten : ∀ a, a < s.outLen → (Memory.read s.out a).isSome
  /-- The registers fit their widths (R20). -/
  fits : RegistersFit s

/-- The registers that hold a value in the spec's sense are the same in s and s', and so is everything else but the
registers: the registers that START or reset made `none` (R40, R180) and no operation has written since may differ. -/
structure AgreeOnWritten (s s' : State) : Prop where
  /-- Only these five registers may differ. -/
  others : s' = { s with width := s'.width, height := s'.height, npix := s'.npix, dataSize := s'.dataSize, pal := s'.pal }
  /-- RDHDR has written WIDTH and HEIGHT once HDR_VALID = 1 (R26). -/
  header : s.hdrValid = true → s'.width = s.width ∧ s'.height = s.height
  /-- SIZE has written NPIX and DATASIZE from LDPIX to DONE. -/
  sizes : 5 ≤ phaseNum s → phaseNum s ≤ 11 → s'.npix = s.npix ∧ s'.dataSize = s.dataSize
  /-- LDPAL has written PAL from UNPACK to DONE. -/
  palette : 7 ≤ phaseNum s → phaseNum s ≤ 11 → s'.pal = s.pal

end Sys2Proof.Machine

/-! What may come between the core steps of a run. -/

namespace Sys2Proof.Machine

/-- An input that may come between the core steps of a run without ending it (R6, R186), when `made` core turns of the
run have been made: every host move that R186 does not refuse then, but reset; a new answer of the sink; a word put to a
function. CSR3 and CSR4 hold a value once CHKLEN and RDHDR have run (R32); OUT is not readable during a run (R236). -/
def mayComeBetween (made : Nat) : Input → Bool
  | .core => false
  | .sink _ => true
  | .eval _ => true
  | .host (.writeSrc a _) => decide (a < Params.hw.srcCap)
  | .host (.writeCsr _ _) => true
  | .host (.readCsr n) => (n != 3 && n != 4) || decide (2 ≤ made)
  | .host (.readOut _) => false
  | .host .assertReset => false

/-- The inputs give a run that has made `made` core turns exactly the `left` turns it still needs, the last of them last,
with any inputs that may come between before each. -/
def fillsRun : List Input → (made left : Nat) → Bool
  | [], _, left => left == 0
  | _ :: _, _, 0 => false
  | i :: is, made, left + 1 =>
    if i = .core then fillsRun is (made + 1) left else mayComeBetween made i && fillsRun is made (left + 1)

/-- The sink's answer after a list of inputs (R165). -/
def sinkAfter (ok : Bool) : List Input → Bool
  | [] => ok
  | .sink b :: is => sinkAfter b is
  | .core :: is => sinkAfter ok is
  | .eval _ :: is => sinkAfter ok is
  | .host _ :: is => sinkAfter ok is

end Sys2Proof.Machine


/-! The result of a run, straight from the bytes of the stream. -/

namespace Sys2Proof.Tex

open Sys2Proof.Machine

/-- Byte a of the stream as a number (0 where none is loaded: used under the launch premises only). -/
def byteAt (src : Memory 8) (a : Nat) : Nat := ((Memory.read src a).getD 0).toNat

/-- The 32-bit little-endian number at a (R60). -/
def word32 (src : Memory 8) (a : Nat) : Nat :=
  byteAt src a + 2 ^ 8 * byteAt src (a + 1) + 2 ^ 16 * byteAt src (a + 2) + 2 ^ 24 * byteAt src (a + 3)

/-- s32 of R10. -/
def signed32 (u : Nat) : Int := if u < 2 ^ 31 then u else (u : Int) - 2 ^ 32

/-- The width field (R91). -/
def width (src : Memory 8) : Int := signed32 (word32 src 8)

/-- The height field (R91). -/
def height (src : Memory 8) : Int := signed32 (word32 src 12)

/-- The pixel count of a stream with legal dimensions (R143). -/
def npix (src : Memory 8) : Nat := (width src * height src).toNat

/-- The packed byte count (R143). -/
def dataSize (src : Memory 8) : Nat := npix src / 2

/-- Which error ends the run, in the order of R208; noError when it ends in DONE. -/
def verdict (src : Memory 8) (srcLen : Nat) (sinkOk : Bool) : ErrCode :=
  if srcLen < 32 then .truncatedPalette
  else if width src ≤ 0 ∨ 4096 < width src ∨ height src ≤ 0 ∨ 4096 < height src then .invalidDimensions
  else if srcLen < 24 + dataSize src then .truncatedData
  else if srcLen < 56 + dataSize src then .truncatedPalette
  else if sinkOk then .noError
  else .writeError

/-- How many core steps the run takes (R184). -/
def stepCount (src : Memory 8) (srcLen : Nat) : Nat :=
  if srcLen < 32 then 1
  else if width src ≤ 0 ∨ 4096 < width src ∨ height src ≤ 0 ∨ 4096 < height src then 3
  else if srcLen < 24 + dataSize src then 5
  else if srcLen < 56 + dataSize src then 6
  else 10

/-- The index of flat pixel n (R148), 0 past the end (R161). -/
def indexAt (src : Memory 8) (n : Nat) : Nat :=
  if n < 2 * dataSize src then
    if n % 2 = 0 then byteAt src (24 + n / 2) % 16 else byteAt src (24 + n / 2) / 16
  else 0

/-- One 8-bit channel of a palette word: the 5-bit field at bit `low`, scaled (R130, R131). -/
def channel (p low : Nat) : Nat := p / 2 ^ low % 32 * 255 / 31

/-- Palette word i (R101). -/
def palWordAt (src : Memory 8) (srcLen i : Nat) : Nat :=
  byteAt src (srcLen - 32 + 2 * i) + 256 * byteAt src (srcLen - 31 + 2 * i)

/-- The colour of an index: black for 0, else the decoded palette entry (R162). -/
def colourOf (src : Memory 8) (srcLen i : Nat) : RGB :=
  if i = 0 then { r := 0, g := 0, b := 0 }
  else
    { r := BitVec.ofNat 8 (channel (palWordAt src srcLen i) 10)
      g := BitVec.ofNat 8 (channel (palWordAt src srcLen i) 5)
      b := BitVec.ofNat 8 (channel (palWordAt src srcLen i) 0) }

/-- The flat pixel number that output pixel p shows: column p mod WIDTH of row HEIGHT − 1 − (p div WIDTH) (R70). -/
def shownPixel (w h p : Nat) : Nat := (h - 1 - p / w) * w + p % w

/-- The colour of output pixel p (R70, R163). -/
def pixelAt (src : Memory 8) (srcLen p : Nat) : RGB :=
  colourOf src srcLen (indexAt src (shownPixel (width src).toNat (height src).toNat p))

/-- The low byte of a number shifted right by i bytes. -/
def byteOfNumber (v i : Nat) : Byte := BitVec.ofNat 8 (v / 256 ^ i % 256)

/-- A 4-byte little-endian field (R60). -/
def le4 (v : Nat) : List Byte := [byteOfNumber v 0, byteOfNumber v 1, byteOfNumber v 2, byteOfNumber v 3]

/-- A 2-byte little-endian field (R60). -/
def le2 (v : Nat) : List Byte := [byteOfNumber v 0, byteOfNumber v 1]

/-- The 54 header bytes of R96 in the order of its table, from the file size and the two dimension patterns. -/
def headerOf (size w h : Nat) : List Byte :=
  [0x42, 0x4D] ++ le4 size ++ le2 0 ++ le2 0 ++ le4 54 ++ le4 40 ++ le4 w ++ le4 h ++ le2 1 ++ le2 24
    ++ le4 0 ++ le4 0 ++ le4 0 ++ le4 0 ++ le4 0 ++ le4 0

/-- The header of a w × h bitmap (R96, R160). -/
def headerBytes (w h : Nat) : List Byte := headerOf (54 + 3 * (w * h)) w h

/-- OUT holds the whole bitmap of the stream (R70). -/
def OutputIsBitmap (src : Memory 8) (srcLen : Nat) (out : Memory 8) : Prop :=
  (∀ a, a < 54 → Memory.read out a = (headerBytes (width src).toNat (height src).toNat)[a]?) ∧
  ∀ p, p < npix src →
    Memory.read out (54 + 3 * p) = some (pixelAt src srcLen p).r ∧
    Memory.read out (55 + 3 * p) = some (pixelAt src srcLen p).g ∧
    Memory.read out (56 + 3 * p) = some (pixelAt src srcLen p).b

/-- Both header fields are legal (R142). -/
def LegalHeader (src : Memory 8) : Prop := (1 ≤ width src ∧ width src ≤ 4096) ∧ 1 ≤ height src ∧ height src ≤ 4096

/-- The addresses of the stream a run reads (R64, R65, R66, R68): none below 32 bytes (R140); else the header fields; the
pixel region when the dimensions are legal and it lies within the stream (R144); the palette region when it does not
overlap that (R145). -/
def MayBeRead (src : Memory 8) (srcLen a : Nat) : Prop :=
  32 ≤ srcLen ∧
    ((8 ≤ a ∧ a < 16) ∨
     (LegalHeader src ∧ 24 + dataSize src ≤ srcLen ∧ 24 ≤ a ∧ a < 24 + dataSize src) ∨
     (LegalHeader src ∧ 56 + dataSize src ≤ srcLen ∧ srcLen - 32 ≤ a ∧ a < srcLen))

end Sys2Proof.Tex

namespace Sys2Proof.Machine

/-- A START to come in a halt state under the launch premises (R180, R232), with the inputs of its run: `is`, then `rest`
for after the run; when nothing is to come after `is`, the last r turns of the run may be the ones an empty list leaves to
the core (log 5). -/
structure Launch (s : State) (is rest : List Input) (r : Nat) : Prop where
  halted : Halted s
  command : ∃ ctrl : Word, ctrl.getLsbD 0 = true ∧ s.inputs = .host (.writeCsr 0 ctrl) :: (is ++ rest)
  loaded : SrcLoaded s
  lastTurns : r = 0 ∨ rest = []
  turns : fillsRun (is ++ List.replicate r .core) 0 (Tex.stepCount s.src s.srcLen.toNat) = true

end Sys2Proof.Machine
end

