-- ==== Sys2Proof/Certificates/Slice0/Obligations.lean ====
section
/-! DEFINITION. The statements about this model, for the provers. Each docstring names the rule of spec/ it formalises, or
says that it states the model's own choice. -/

open Sys2Proof Sys2Proof.Machine

/-! Encoding. -/

/-- R24, R97, R98, R106, R108: the thirteen PHASE codes select their operations and 13, 14, 15 select none; a CTRLWORD is a
START exactly when its bit 0 is 1; a function's input word, in its format, is that function on that word. -/
def Obligations.DecodeReadsTheTablesWords : Prop :=
  decode (.opcode 0b0000) = .ok .idle ∧ decode (.opcode 0b0001) = .ok .chklen ∧
  decode (.opcode 0b0010) = .ok .rdhdr ∧ decode (.opcode 0b0011) = .ok .chkdim ∧
  decode (.opcode 0b0100) = .ok .size ∧ decode (.opcode 0b0101) = .ok .ldpix ∧
  decode (.opcode 0b0110) = .ok .ldpal ∧ decode (.opcode 0b0111) = .ok .unpack ∧
  decode (.opcode 0b1000) = .ok .emithdr ∧ decode (.opcode 0b1001) = .ok .emitpix ∧
  decode (.opcode 0b1010) = .ok .commit ∧ decode (.opcode 0b1011) = .ok .done ∧
  decode (.opcode 0b1100) = .ok .fail ∧
  decode (.opcode 0b1101) = .error (.unusedPhaseCode 13) ∧
  decode (.opcode 0b1110) = .error (.unusedPhaseCode 14) ∧
  decode (.opcode 0b1111) = .error (.unusedPhaseCode 15) ∧
  (∀ v : Word, v.getLsbD 0 = true → decode (.ctrlword v) = .ok (.start v)) ∧
  (∀ v : Word, v.getLsbD 0 = false → decode (.ctrlword v) = .error (.startBitClear v)) ∧
  (∀ v : BitVec 5, decode (.fn (.v5 v)) = .ok (.scale5 v)) ∧
  (∀ p : BitVec 16, decode (.fn (.rgb555 p)) = .ok (.cvt555 p)) ∧
  (∀ b : Byte, decode (.fn (.pixb b)) = .ok (.unpk b)) ∧
  (∀ n : BitVec 24, decode (.fn (.flatpix n)) = .ok (.idxat n)) ∧
  ∀ i : Index, decode (.fn (.idx4 i)) = .ok (.resolve i)

/-- Decode and encode agree on bytes (whose form is log 22), for every well-formed operation with every operand. -/
def Obligations.DecodeOfEncodedBytesGivesTheOperation : Prop :=
  ∀ i : Instr, i.wf = true → decodeBytes (encodeBytes i).1 (encodeBytes i).2 = .ok i

/-- Bytes that decode are the encoding of what they decode to, and that is well-formed: in a format each word has one
meaning, and no bit of it is dropped (the byte form: log 22). -/
def Obligations.EncodeOfDecodedBytesGivesTheBytes : Prop :=
  ∀ (f : Format) (bs : List Byte) (i : Instr),
    decodeBytes f bs = .ok i → i.wf = true ∧ encodeBytes i = (f, bs)

/-- A step runs the decoded operation (R6, R97, R98; the turn-taking is the model's, log 5, log 7): the word in PHASE on
the core's turn, the word of a CSR0 write on the host's, the word put to a function; the input is used up. -/
def Obligations.StepRunsTheDecodedOperation : Prop :=
  ∀ (s : State) (i : Instr),
    (s.inputs = [] → decode (.opcode s.phase.code) = .ok i → step s = exec i s) ∧
    (∀ rest, s.inputs = .core :: rest → decode (.opcode s.phase.code) = .ok i →
      step s = exec i { s with inputs := rest }) ∧
    (∀ v rest, s.inputs = .host (.writeCsr 0 v) :: rest → decode (.ctrlword v) = .ok i →
      step s = exec i { s with inputs := rest }) ∧
    (∀ w rest, s.inputs = .eval w :: rest → decode (.fn w) = .ok i →
      step s = exec i { s with inputs := rest })

/-- The model's own (log 8, log 13): a table word that decodes, placed where step takes its next operation from, is the
very operation the next step runs, in the state it was placed in but for PHASE, which an OPCODE is placed in. -/
def Obligations.PlacedTableWordRunsNext : Prop :=
  ∀ (s : State) (nbits w : Nat) (i : Instr), decodeTableWord nbits w = some i →
    step (s.withFetchWord nbits w) = exec i s ∨
    ∃ p : Phase, encode i = .opcode p.code ∧ step (s.withFetchWord nbits w) = exec i { s with phase := p }

/-! The combinational functions. -/

/-- R130: SCALE5(v) = (v × 255) div 31, and nothing else changes. That a function runs as a step and leaves its result in
fnOut is the model's own (log 7), here and in the next statements. -/
def Obligations.Scale5IsTruncatedScaling : Prop :=
  ∀ (v : BitVec 5) (s : State), ∃ c : Byte,
    exec (.scale5 v) s = .next { s with fnOut := .channel c } ∧ c.toNat = v.toNat * 255 / 31

/-- R132: the decoder's properties. -/
def Obligations.Scale5IsMonotoneAndBounded : Prop :=
  (∀ v w : BitVec 5, v.toNat ≤ w.toNat → (scale5 v).toNat ≤ (scale5 w).toNat) ∧
  (scale5 31).toNat = 255 ∧ (scale5 0).toNat = 0 ∧
  (∀ v : BitVec 5, 8 * v.toNat ≤ (scale5 v).toNat ∧ (scale5 v).toNat ≤ 8 * v.toNat + 7) ∧
  (∀ v w : BitVec 5, scale5 v = scale5 w → v = w)

/-- R131, R103: CVT555 scales the three fields, ignores bit 15, and changes nothing else (fnOut: log 7). -/
def Obligations.Cvt555ConvertsTheThreeFields : Prop :=
  ∀ (p : BitVec 16) (s : State), ∃ c : RGB,
    exec (.cvt555 p) s = .next { s with fnOut := .colour c } ∧
    c.r.toNat = p.toNat / 1024 % 32 * 255 / 31 ∧
    c.g.toNat = p.toNat / 32 % 32 * 255 / 31 ∧
    c.b.toNat = p.toNat % 32 * 255 / 31 ∧
    exec (.cvt555 (p &&& 0x7FFF)) s = exec (.cvt555 p) s

/-- R146, R92: UNPK gives the low nibble first, its inverse is PACK, and nothing else changes (fnOut: log 7). -/
def Obligations.UnpkGivesLowNibbleFirst : Prop :=
  (∀ (b : Byte) (s : State), ∃ a c : Index,
    exec (.unpk b) s = .next { s with fnOut := .pair a c } ∧
    a.toNat = b.toNat % 16 ∧ c.toNat = b.toNat / 16 ∧ pack a c = b) ∧
  (∀ (a c : Index) (s : State), exec (.unpk (pack a c)) s = .next { s with fnOut := .pair a c }) ∧
  (∀ a c : Index, (pack a c).toNat = a.toNat + 16 * c.toNat)

/-- R161: IDXAT gives IDX[n] below IDX_LEN and MISSING_INDEX = 0 past it, and nothing else changes (fnOut: log 7). -/
def Obligations.IdxatAnswersPastTheEnd : Prop :=
  ∀ (n : BitVec 24) (s : State),
    (∀ i : Index, n.toNat < s.idxLen → Memory.read s.idx n.toNat = some i →
      exec (.idxat n) s = .next { s with fnOut := .index i }) ∧
    (s.idxLen ≤ n.toNat → exec (.idxat n) s = .next { s with fnOut := .index 0 })

/-- R162: RESOLVE gives black for index 0, whatever PAL[0] holds, and PAL[i] otherwise; nothing else changes (fnOut:
log 7). -/
def Obligations.ResolveSubstitutesTheKey : Prop :=
  ∀ (i : Index) (s : State),
    (i = 0 → exec (.resolve i) s = .next { s with fnOut := .colour { r := 0, g := 0, b := 0 } }) ∧
    (∀ h : i.toNat < 16, i ≠ 0 → exec (.resolve i) s = .next { s with fnOut := .colour s.pal[i.toNat] })

/-! The texture parser. The whole next state is given, so each statement is the operation's frame as well. -/

/-- R140, R210: CHKLEN raises TruncatedPalette below 32 bytes and goes to RDHDR otherwise. -/
def Obligations.ChklenChecksTheLength : Prop :=
  ∀ s : State,
    (s.srcLen.toNat < 32 →
      exec .chklen s = .next { s with errCode := .truncatedPalette, outLen := 0, phase := .fail }) ∧
    (32 ≤ s.srcLen.toNat → exec .chklen s = .next { s with phase := .rdhdr })

/-- R141, R99: RDHDR reads the two little-endian fields at 8 and 12 and sets HDR_VALID. -/
def Obligations.RdhdrReadsTheTwoFields : Prop :=
  ∀ (s : State) (b0 b1 b2 b3 c0 c1 c2 c3 : Byte),
    Memory.read s.src 8 = some b0 → Memory.read s.src 9 = some b1 →
    Memory.read s.src 10 = some b2 → Memory.read s.src 11 = some b3 →
    Memory.read s.src 12 = some c0 → Memory.read s.src 13 = some c1 →
    Memory.read s.src 14 = some c2 → Memory.read s.src 15 = some c3 →
    exec .rdhdr s = .next { s with
      width := b3 ++ b2 ++ b1 ++ b0, height := c3 ++ c2 ++ c1 ++ c0, hdrValid := true, phase := .chkdim }

/-- R142, R210: CHKDIM raises InvalidDimensions when a signed field is outside 1 .. 4096 and goes to SIZE otherwise. -/
def Obligations.ChkdimChecksTheDimensions : Prop :=
  ∀ s : State,
    (s.width.toInt ≤ 0 ∨ 4096 < s.width.toInt ∨ s.height.toInt ≤ 0 ∨ 4096 < s.height.toInt →
      exec .chkdim s = .next { s with errCode := .invalidDimensions, outLen := 0, phase := .fail }) ∧
    (1 ≤ s.width.toInt ∧ s.width.toInt ≤ 4096 ∧ 1 ≤ s.height.toInt ∧ s.height.toInt ≤ 4096 →
      exec .chkdim s = .next { s with phase := .size })

/-- R143, R22, R9: SIZE writes the exact product and its half, within the bounds of R9 for legal dimensions. That it
completes on a negative product, writing a free value and its half, is the model's choice (log 10). -/
def Obligations.SizeMultipliesExactly : Prop :=
  ∀ s : State, ∃ n : Nat,
    exec .size s = .next { s with npix := n, dataSize := n / 2, phase := .ldpix } ∧
    (0 ≤ s.width.toInt * s.height.toInt → (n : Int) = s.width.toInt * s.height.toInt) ∧
    (1 ≤ s.width.toInt → s.width.toInt ≤ 4096 → 1 ≤ s.height.toInt → s.height.toInt ≤ 4096 →
      1 ≤ n ∧ n ≤ 16777216 ∧ n / 2 ≤ 8388608)

/-- R144, R210: LDPIX raises TruncatedData when fewer than DATASIZE bytes follow offset 24, and otherwise copies them
unchanged to PIX and touches no other cell. -/
def Obligations.LdpixCopiesThePackedBytes : Prop :=
  ∀ s : State,
    (s.srcLen.toNat < 24 + s.dataSize →
      exec .ldpix s = .next { s with errCode := .truncatedData, outLen := 0, phase := .fail }) ∧
    (24 + s.dataSize ≤ s.srcLen.toNat → (∀ k, k < s.dataSize → (Memory.read s.src (24 + k)).isSome) →
      ∃ m : Memory 8, exec .ldpix s = .next { s with pix := m, phase := .ldpal } ∧
        (∀ k, k < s.dataSize → Memory.read m k = Memory.read s.src (24 + k)) ∧
        ∀ a, s.dataSize ≤ a → Memory.read m a = Memory.read s.pix a)

/-- R145, R69, R101, R210: LDPAL raises TruncatedPalette when the regions overlap, and otherwise loads all 16 entries,
entry i from the little-endian word at SRC_LEN − 32 + 2i. -/
def Obligations.LdpalLoadsTheLastThirtyTwoBytes : Prop :=
  ∀ s : State,
    (s.srcLen.toNat < 56 + s.dataSize →
      exec .ldpal s = .next { s with errCode := .truncatedPalette, outLen := 0, phase := .fail }) ∧
    (∀ b : Nat → Byte, 56 + s.dataSize ≤ s.srcLen.toNat →
      (∀ j, j < 32 → Memory.read s.src (s.srcLen.toNat - 32 + j) = some (b j)) →
      ∃ pal : Vector RGB 16, exec .ldpal s = .next { s with pal := pal, phase := .unpack } ∧
        ∀ i (h : i < 16), pal[i] = cvt555 (b (2 * i + 1) ++ b (2 * i)))

/-- R145, for either value of OVERLAP_CHECK: an overlap raises TruncatedPalette when it is 1 and nothing when it is 0, and
then, or without an overlap, all 16 entries are loaded from the last 32 bytes; LDPAL of this hardware has OVERLAP_CHECK = 1. -/
def Obligations.LdpalFollowsOverlapCheck : Prop :=
  (∀ s : State, exec .ldpal s = ldpalWith Params.hw s) ∧ Params.hw.overlapCheck = true ∧
  ∀ (c : Params) (s : State),
    (c.overlapCheck = true → s.srcLen.toNat < 56 + s.dataSize →
      ldpalWith c s = .next { s with errCode := .truncatedPalette, outLen := 0, phase := .fail }) ∧
    (∀ b : Nat → Byte, c.overlapCheck = false ∨ 56 + s.dataSize ≤ s.srcLen.toNat → 32 ≤ s.srcLen.toNat →
      (∀ j, j < 32 → Memory.read s.src (s.srcLen.toNat - 32 + j) = some (b j)) →
      ∃ pal : Vector RGB 16, ldpalWith c s = .next { s with pal := pal, phase := .unpack } ∧
        ∀ i (h : i < 16), pal[i] = cvt555 (b (2 * i + 1) ++ b (2 * i)))

/-- R147, R146, R23: UNPACK writes the low nibble of byte k to element 2k and the high one to 2k + 1, sets IDX_LEN, and
touches no other element. -/
def Obligations.UnpackFillsTheIndexBuffer : Prop :=
  ∀ s : State, (∀ k, k < s.dataSize → (Memory.read s.pix k).isSome) →
    ∃ m : Memory 4, exec .unpack s = .next { s with idx := m, idxLen := 2 * s.dataSize, phase := .emithdr } ∧
      (∀ k b, k < s.dataSize → Memory.read s.pix k = some b →
        Memory.read m (2 * k) = some (b.extractLsb' 0 4) ∧
        Memory.read m (2 * k + 1) = some (b.extractLsb' 4 4)) ∧
      ∀ a, 2 * s.dataSize ≤ a → Memory.read m a = Memory.read s.idx a

/-! The bitmap encoder. -/

/-- R160, R96 (layout from general knowledge, log 15): EMITHDR appends the 54 header bytes at OUT_LEN and touches no
other cell. -/
def Obligations.EmithdrAppendsTheHeader : Prop :=
  ∀ s : State, ∃ m : Memory 8,
    exec .emithdr s = .next { s with out := m, outLen := s.outLen + 54, phase := .emitpix } ∧
    (∀ a, a < 54 →
      Memory.read m (s.outLen + a) = (Tex.headerOf (54 + 3 * s.npix) s.width.toNat s.height.toNat)[a]?) ∧
    ∀ a, a < s.outLen ∨ s.outLen + 54 ≤ a → Memory.read m a = Memory.read s.out a

/-- R163, R95, R161, R162: EMITPIX appends the pixels, last image row first and left to right, red, green, blue, and
touches no other cell. Output pixel p shows column p mod WIDTH of row HEIGHT − 1 − (p div WIDTH). -/
def Obligations.EmitpixSerialisesBottomUp : Prop :=
  ∀ (s : State) (ix : Nat → Index),
    (∀ n, n < s.idxLen → n < s.width.toInt.toNat * s.height.toInt.toNat → Memory.read s.idx n = some (ix n)) →
    ∃ m : Memory 8,
      exec .emitpix s = .next { s with
        out := m, outLen := s.outLen + 3 * (s.width.toInt.toNat * s.height.toInt.toNat), phase := .commit } ∧
      (∀ p, p < s.width.toInt.toNat * s.height.toInt.toNat →
        ∀ (n : Nat) (i : Index) (c : RGB),
          n = (s.height.toInt.toNat - 1 - p / s.width.toInt.toNat) * s.width.toInt.toNat
            + p % s.width.toInt.toNat →
          i = (if n < s.idxLen then ix n else 0) →
          c = (if i = 0 then { r := 0, g := 0, b := 0 } else s.pal[i.toNat]'(by have := i.isLt; omega)) →
          Memory.read m (s.outLen + 3 * p) = some c.r ∧
          Memory.read m (s.outLen + 3 * p + 1) = some c.g ∧
          Memory.read m (s.outLen + 3 * p + 2) = some c.b) ∧
      ∀ a, a < s.outLen ∨ s.outLen + 3 * (s.width.toInt.toNat * s.height.toInt.toNat) ≤ a →
        Memory.read m a = Memory.read s.out a

/-- R165, R210: COMMIT goes to DONE when the sink accepts and raises WriteError when it does not (where its answer stands:
log 6). -/
def Obligations.CommitAsksTheSink : Prop :=
  ∀ s : State,
    (s.sinkOk = true → exec .commit s = .next { s with phase := .done }) ∧
    (s.sinkOk = false → exec .commit s = .next { s with errCode := .writeError, outLen := 0, phase := .fail })

/-! Sequencer, host and reset. -/

/-- R182, R183 (that a step without an enabled operation leaves the state as it is, is the model's form, log 1): the halt
states change nothing, and a halted machine with no input to come stays as it is. -/
def Obligations.HaltStatesChangeNothing : Prop :=
  (∀ s : State, exec .idle s = .next s ∧ exec .done s = .next s ∧ exec .fail s = .next s) ∧
  ∀ s : State, Halted s → s.inputs = [] → step s = .next s

/-- R180, R41: an accepted START clears the control state and the lengths, empties PIX, IDX and OUT, keeps SRC and
SRC_LEN, and goes to CHKLEN. Nothing is said of WIDTH, HEIGHT, NPIX, DATASIZE and PAL, which hold free values (log 3). -/
def Obligations.StartBeginsARun : Prop :=
  ∀ (s : State) (ctrl : Word), ctrl.getLsbD 0 = true → Halted s →
    ∃ t : State, exec (.start ctrl) s = .next t ∧
      t.phase = .chklen ∧ t.errCode = .noError ∧ t.hdrValid = false ∧ t.outLen = 0 ∧ t.idxLen = 0 ∧
      (∀ a, Memory.read t.pix a = none) ∧ (∀ a, Memory.read t.idx a = none) ∧ (∀ a, Memory.read t.out a = none) ∧
      t.src = s.src ∧ t.srcLen = s.srcLen ∧
      t.sinkOk = s.sinkOk ∧ t.inputs = s.inputs ∧ t.hostReply = s.hostReply ∧ t.fnOut = s.fnOut

/-- R180, R29: a START while BUSY = 1 has no effect, and a CSR0 write with bit 0 = 0 does nothing in any state. -/
def Obligations.StartIsDroppedWhileBusy : Prop :=
  (∀ (s : State) (ctrl : Word), 1 ≤ phaseNum s → phaseNum s ≤ 10 → exec (.start ctrl) s = .next s) ∧
  ∀ (s : State) (v : Word) (rest : List Input), v.getLsbD 0 = false →
    s.inputs = .host (.writeCsr 0 v) :: rest → step s = .next { s with inputs := rest }

/-- R31, R35, R28, R186: the host's writes of SRC below SRC_CAP and of CSR2 are stored while BUSY = 0 and ignored while
BUSY = 1; a write of any other CSR but CSR0 is ignored; no other cell or register changes. SRC_CAP is at least 8388664 (R8,
log 12). That a write of SRC at or above SRC_CAP, no move of R186, ends in a refusal is the model's own (log 11). -/
def Obligations.HostWritesObeyTheInterlock : Prop :=
  8388664 ≤ Params.hw.srcCap ∧ ∀ (s : State) (rest : List Input),
    (∀ a b, a < Params.hw.srcCap → s.inputs = .host (.writeSrc a b) :: rest → Halted s →
      ∃ m : Memory 8, step s = .next { s with inputs := rest, src := m } ∧
        Memory.read m a = some b ∧ ∀ c, c ≠ a → Memory.read m c = Memory.read s.src c) ∧
    (∀ a b, a < Params.hw.srcCap → s.inputs = .host (.writeSrc a b) :: rest → ¬ Halted s →
      step s = .next { s with inputs := rest }) ∧
    (∀ a b, Params.hw.srcCap ≤ a → s.inputs = .host (.writeSrc a b) :: rest → step s = .refused (.beyondSrcCap a)) ∧
    (∀ v, s.inputs = .host (.writeCsr 2 v) :: rest → Halted s →
      step s = .next { s with inputs := rest, srcLen := v }) ∧
    (∀ v, s.inputs = .host (.writeCsr 2 v) :: rest → ¬ Halted s → step s = .next { s with inputs := rest }) ∧
    (∀ n v, n ≠ 0 → n ≠ 2 → s.inputs = .host (.writeCsr n v) :: rest → step s = .next { s with inputs := rest })

/-- R28, R31, R32, R186: a host read of a CSR returns its word and changes nothing else; a read of CSR3 or CSR4 while
HDR_VALID = 0 is refused (the form of the refusal: log 11; of the reply: log 18). The spec's OUT_LEN fits 32 bits; the
premise rules out states no run reaches (log 9). -/
def Obligations.HostReadsOfCsrsReturnTheWord : Prop :=
  ∀ (s : State) (n : Nat) (rest : List Input), s.inputs = .host (.readCsr n) :: rest →
    (∀ v : Word,
      (n = 0 ∧ v = 0) ∨ (n = 1 ∧ v = status s) ∨ (n = 2 ∧ v = s.srcLen) ∨
      (n = 3 ∧ s.hdrValid = true ∧ v = s.width) ∨ (n = 4 ∧ s.hdrValid = true ∧ v = s.height) ∨
      (n = 5 ∧ s.outLen < 2 ^ 32 ∧ v.toNat = s.outLen) ∨ (6 ≤ n ∧ v = 0) →
      step s = .next { s with inputs := rest, hostReply := .word v }) ∧
    (n = 3 ∨ n = 4 → s.hdrValid = false → step s = .refused (.csrHoldsNoValue n))

/-- R30, R25: the STATUS word, field by field. -/
def Obligations.StatusPacksItsFields : Prop :=
  ∀ s : State, (status s).toNat =
    s.phase.code.toNat
      + 16 * (if 1 ≤ s.phase.code.toNat ∧ s.phase.code.toNat ≤ 10 then 1 else 0)
      + 32 * (if s.phase.code.toNat = 11 then 1 else 0)
      + 64 * (if s.phase.code.toNat = 12 then 1 else 0)
      + 128 * (if s.hdrValid then 1 else 0)
      + 256 * s.errCode.code.toNat

/-- 95_test_vectors.md V-E3: the seventeen values CSR1 can take in a run, and in IDLE. -/
def Obligations.StatusTakesSeventeenValues : Prop :=
  ∀ s : State, RunInv s →
    status s ∈ [0x00000000#32, 0x00000011#32, 0x00000012#32, 0x00000093#32, 0x00000094#32, 0x00000095#32,
      0x00000096#32, 0x00000097#32, 0x00000098#32, 0x00000099#32, 0x0000009A#32, 0x000000AB#32, 0x0000044C#32,
      0x000002CC#32, 0x000003CC#32, 0x000004CC#32, 0x000005CC#32]

/-- R236, R38: a host read of OUT[a] returns the byte in DONE below OUT_LEN and is refused otherwise (the form of the
refusal: log 11; of the reply: log 18). -/
def Obligations.HostReadsOutOnlyWhenDone : Prop :=
  ∀ (s : State) (a : Nat) (rest : List Input), s.inputs = .host (.readOut a) :: rest →
    (∀ b, s.phase = .done → a < s.outLen → Memory.read s.out a = some b →
      step s = .next { s with inputs := rest, hostReply := .byte b }) ∧
    (s.phase ≠ .done ∨ s.outLen ≤ a → step s = .refused (.outNotReadable a))

/-- R230, R40: asserting reset, in any state, puts the core in the state after reset (that the inputs to come and the
model's own fields stay is log 17; that registers R40 gives no value are not spoken of here, see log 2). -/
def Obligations.AssertResetGivesTheResetState : Prop :=
  ∀ (s : State) (rest : List Input), s.inputs = .host .assertReset :: rest →
    ∃ t : State, step s = .next t ∧
      t.phase = .idle ∧ t.errCode = .noError ∧ t.hdrValid = false ∧ t.srcLen = 0 ∧ t.outLen = 0 ∧ t.idxLen = 0 ∧
      (∀ a, Memory.read t.src a = none) ∧ (∀ a, Memory.read t.pix a = none) ∧
      (∀ a, Memory.read t.idx a = none) ∧ (∀ a, Memory.read t.out a = none) ∧
      t.inputs = rest ∧ t.sinkOk = s.sinkOk

/-- R40: the values after reset that the spec gives. -/
def Obligations.ResetValuesAreTheSpecs : Prop :=
  State.reset.phase = .idle ∧ State.reset.errCode = .noError ∧ State.reset.hdrValid = false ∧
  State.reset.srcLen = 0 ∧ State.reset.outLen = 0 ∧ State.reset.idxLen = 0 ∧ status State.reset = 0 ∧
  (∀ a, Memory.read State.reset.src a = none) ∧ (∀ a, Memory.read State.reset.pix a = none) ∧
  (∀ a, Memory.read State.reset.idx a = none) ∧ (∀ a, Memory.read State.reset.out a = none)

/-- The model's own (log 6): a new answer of the sink changes nothing but that answer. -/
def Obligations.SinkAnswerIsAnInput : Prop :=
  ∀ (s : State) (ok : Bool) (rest : List Input), s.inputs = .sink ok :: rest →
    step s = .next { s with inputs := rest, sinkOk := ok }

/-- The model's own (log 4, log 19, from R10, R232 and U19): every operation that reads a memory, and the host's read of OUT,
stops at the first cell it meets that holds no value, with that cell's fault. -/
def Obligations.CellWithoutValueStopsTheStep : Prop :=
  ∀ s : State,
    (∀ k, k < 8 → Memory.read s.src (8 + k) = none → (∀ j, j < k → (Memory.read s.src (8 + j)).isSome) →
      exec .rdhdr s = .fault (.unwrittenCell .src (8 + k))) ∧
    (∀ k, k < s.dataSize → 24 + s.dataSize ≤ s.srcLen.toNat → Memory.read s.src (24 + k) = none →
      (∀ j, j < k → (Memory.read s.src (24 + j)).isSome) →
      exec .ldpix s = .fault (.unwrittenCell .src (24 + k))) ∧
    (∀ k, k < 32 → 56 + s.dataSize ≤ s.srcLen.toNat → Memory.read s.src (s.srcLen.toNat - 32 + k) = none →
      (∀ j, j < k → (Memory.read s.src (s.srcLen.toNat - 32 + j)).isSome) →
      exec .ldpal s = .fault (.unwrittenCell .src (s.srcLen.toNat - 32 + k))) ∧
    (∀ k, k < s.dataSize → Memory.read s.pix k = none → (∀ j, j < k → (Memory.read s.pix j).isSome) →
      exec .unpack s = .fault (.unwrittenCell .pix k)) ∧
    (∀ n : Nat → Nat, (∀ p, n p = Tex.shownPixel s.width.toInt.toNat s.height.toInt.toNat p) →
      ∀ p, p < s.width.toInt.toNat * s.height.toInt.toNat → n p < s.idxLen → Memory.read s.idx (n p) = none →
      (∀ q, q < p → n q < s.idxLen → (Memory.read s.idx (n q)).isSome) →
      exec .emitpix s = .fault (.unwrittenCell .idx (n p))) ∧
    (∀ n : BitVec 24, n.toNat < s.idxLen → Memory.read s.idx n.toNat = none →
      exec (.idxat n) s = .fault (.unwrittenCell .idx n.toNat)) ∧
    (∀ a rest, s.inputs = .host (.readOut a) :: rest → s.phase = .done → a < s.outLen → Memory.read s.out a = none →
      step s = .fault (.unwrittenCell .out a))

/-- R60, R62: a one-byte, a two-byte and a four-byte read of any space are the combination of the reads of their own bytes,
least significant byte first. -/
def Obligations.WideReadsAreLittleEndian : Prop :=
  ∀ (sp : Space) (m : Memory 8) (a : Nat) (b0 : Byte), Memory.read m a = some b0 →
    memRead sp m a 1 = .ok b0.toNat ∧
    ∀ b1 : Byte, Memory.read m (a + 1) = some b1 →
      memRead sp m a 2 = .ok (b0.toNat + 256 * b1.toNat) ∧
      ∀ b2 b3 : Byte, Memory.read m (a + 2) = some b2 → Memory.read m (a + 3) = some b3 →
        memRead sp m a 4 = .ok (b0.toNat + 2 ^ 8 * b1.toNat + 2 ^ 16 * b2.toNat + 2 ^ 24 * b3.toNat)

/-! Whole-machine rules. -/

/-- R40, log 4: the memories are canonical after reset. -/
def Obligations.MemoriesAreCanonicalAtReset : Prop := MemoriesWf State.reset

/-- Every step, of the core or the host, keeps every memory in canonical form. -/
def Obligations.EveryStepKeepsMemoriesCanonical : Prop :=
  ∀ s t : State, MemoriesWf s → step s = .next t → MemoriesWf t

/-- The phase invariant holds after reset. -/
def Obligations.RunInvHoldsAtReset : Prop := RunInv State.reset

/-- R148, R183, R233, R27, R164: every step, of the core or the host, keeps the phase invariant. -/
def Obligations.EveryStepKeepsRunInv : Prop :=
  ∀ s t : State, RunInv s → step s = .next t → RunInv t

/-- R181, R185, R24: the complete list of the ways PHASE can change. -/
def Obligations.PhaseChangesOnlyAsListed : Prop :=
  ∀ s t : State, step s = .next t → t.phase ≠ s.phase →
    (1 ≤ phaseNum s ∧ phaseNum s ≤ 10 ∧ phaseNum t = phaseNum s + 1) ∨
    (t.phase = .fail ∧ (s.phase = .chklen ∨ s.phase = .chkdim ∨ s.phase = .ldpix ∨ s.phase = .ldpal
      ∨ s.phase = .commit)) ∨
    (t.phase = .chklen ∧ Halted s ∧ ∃ v rest, s.inputs = .host (.writeCsr 0 v) :: rest ∧ v.getLsbD 0 = true) ∨
    (t.phase = .idle ∧ ∃ rest, s.inputs = .host .assertReset :: rest)

/-- R200 to R204, R210, R209: when a step enters FAIL, the error is the one its operation raises, its condition held, and
nothing but ERRCODE, OUT_LEN and PHASE (and the input used up) has changed. -/
def Obligations.EveryErrorHasItsCause : Prop :=
  ∀ s t : State, step s = .next t → t.phase = .fail → s.phase ≠ .fail →
    t = { s with errCode := t.errCode, outLen := 0, phase := .fail, inputs := s.inputs.tail } ∧
    ((s.phase = .chklen ∧ t.errCode = .truncatedPalette ∧ s.srcLen.toNat < 32) ∨
     (s.phase = .chkdim ∧ t.errCode = .invalidDimensions ∧ ¬ LegalDimensions s) ∨
     (s.phase = .ldpix ∧ t.errCode = .truncatedData ∧ s.srcLen.toNat < 24 + s.dataSize) ∨
     (s.phase = .ldpal ∧ t.errCode = .truncatedPalette ∧ s.srcLen.toNat < 56 + s.dataSize) ∨
     (s.phase = .commit ∧ t.errCode = .writeError ∧ s.sinkOk = false))

/-- R74, R35, R31, R20: while BUSY = 1 nothing but reset changes SRC or SRC_LEN; and in a halt state the core's own step
changes nothing but the turn used up (R182, R183; that such a turn is a step at all is the model's form, log 1). -/
def Obligations.SourceIsStableDuringARun : Prop :=
  ∀ s t : State, step s = .next t → (∀ rest, s.inputs ≠ .host .assertReset :: rest) →
    (¬ Halted s → t.src = s.src ∧ t.srcLen = s.srcLen) ∧
    (Halted s → s.inputs.head? = some .core ∨ s.inputs = [] → t = { s with inputs := s.inputs.tail })

/-- R233, R65, for the memories: under the launch premises no core turn, given or left by an empty list (log 5), meets a cell
without value (which would be the fault of log 4), and no host read of OUT that R236 allows does: each has a next state. -/
def Obligations.NoStopUnderTheLaunchPremises : Prop :=
  ∀ s : State, RunInv s → SrcLoaded s →
    (s.inputs = [] ∨ (∃ rest, s.inputs = .core :: rest) → ∃ t : State, step s = .next t) ∧
    ∀ a rest, s.inputs = .host (.readOut a) :: rest → s.phase = .done → a < s.outLen → ∃ t : State, step s = .next t

/-- R233, for the registers: what WIDTH, HEIGHT, NPIX, DATASIZE and PAL hold where the spec says `none` (free values after
START, log 3; zeros after reset, log 2) has no effect on any step of the core or the host: two states that agree on what
has been written step to states that agree on it, or stop alike. (A word put to a function is left out: log 7.) -/
def Obligations.UnwrittenRegistersAreNotRead : Prop :=
  ∀ s s' : State, RunInv s → AgreeOnWritten s s' → (∀ w rest, s.inputs ≠ .eval w :: rest) →
    (∀ t, step s = .next t → ∃ t', step s' = .next t' ∧ AgreeOnWritten t t') ∧
    (∀ f, step s = .fault f → step s' = .fault f) ∧
    ∀ r, step s = .refused r → step s' = .refused r

/-- R184, R6: from any state of a run, with nothing else to come (an empty input list leaves the turns to the core, log 5),
at most ten core steps end it. -/
def Obligations.EveryRunEndsWithinTenSteps : Prop :=
  ∀ s : State, RunInv s → SrcLoaded s → s.inputs = [] → ¬ Halted s →
    ∃ (k : Nat) (t : State), k ≤ 10 ∧ Host.Core.run Sys2Proof.core k s = .next t ∧
      (t.phase = .done ∨ t.phase = .fail)

/-- R184, R6: how many core turns a run takes, by outcome, whatever may come between them: BUSY before the last of them and
halted after it. (The turns and what comes between stand in a list, the model's own, log 5.) -/
def Obligations.RunTakesTheStatedNumberOfSteps : Prop :=
  ∀ (s : State) (is rest : List Input) (r : Nat), Launch s is rest r →
    (∀ k, k < is.length + r → ∃ t : State, Host.Core.run Sys2Proof.core (k + 1) s = .next t ∧ busy t = true) ∧
    ∃ t : State, Host.Core.run Sys2Proof.core (is.length + r + 1) s = .next t ∧ t.inputs = rest ∧
      (t.phase = .done ∨ t.phase = .fail)

/-- R7, R208, R70, R164, R210, R6: the result of a run, from any halt state and whatever may come between its core turns,
straight from the bytes of the stream: the first error in the order of R208, or DONE with OUT the whole bitmap. The header's
layout is log 15, the list of turns log 5, the place of the sink's answer log 6. -/
def Obligations.RunConvertsTheStream : Prop :=
  ∀ (s : State) (is rest : List Input) (r : Nat), Launch s is rest r →
    ∃ t : State, Host.Core.run Sys2Proof.core (is.length + r + 1) s = .next t ∧ t.inputs = rest ∧
      t.src = s.src ∧ t.srcLen = s.srcLen ∧
      t.errCode = Tex.verdict s.src s.srcLen.toNat (sinkAfter s.sinkOk is) ∧
      (Tex.verdict s.src s.srcLen.toNat (sinkAfter s.sinkOk is) ≠ .noError → t.phase = .fail ∧ t.outLen = 0) ∧
      (Tex.verdict s.src s.srcLen.toNat (sinkAfter s.sinkOk is) = .noError →
        t.phase = .done ∧ t.outLen = 54 + 3 * Tex.npix s.src ∧
        s32 t.width = Tex.width s.src ∧ s32 t.height = Tex.height s.src ∧
        Tex.OutputIsBitmap s.src s.srcLen.toNat t.out)

/-- R7, R188, R68, R65, R6: the result of a run depends on SRC_LEN, the sink's answer at the end and the bytes a run reads,
and on nothing else: not on any earlier run, nor on what may come between its core turns, nor on the bytes it does not
read. (The list of turns: log 5; the place of the sink's answer: log 6.) -/
def Obligations.ResultDependsOnTheStreamOnly : Prop :=
  ∀ (s s' : State) (is is' rest rest' : List Input) (r r' : Nat), Launch s is rest r → Launch s' is' rest' r' →
    s'.srcLen = s.srcLen → sinkAfter s'.sinkOk is' = sinkAfter s.sinkOk is →
    (∀ a, Tex.MayBeRead s.src s.srcLen.toNat a → Memory.read s'.src a = Memory.read s.src a) →
    ∃ t t' : State, Host.Core.run Sys2Proof.core (is.length + r + 1) s = .next t ∧
      Host.Core.run Sys2Proof.core (is'.length + r' + 1) s' = .next t' ∧
      t'.phase = t.phase ∧ t'.errCode = t.errCode ∧ t'.outLen = t.outLen ∧
      ∀ a, a < t.outLen → Memory.read t'.out a = Memory.read t.out a
end

