-- ==== Sys2Proof/Laws/Codes.lean ====
section
/-! SUPPORT. Codes and bytes: little-endian lists, decode after encode and encode after decode on typed words. -/

namespace Sys2Proof

@[simp] theorem leBytes_length (n v : Nat) : (leBytes n v).length = n := by
  induction n generalizing v with
  | zero => rfl
  | succ n ih => simp [leBytes, ih]

/-- A number that fits n bytes is read back from them. -/
theorem leValue_leBytes (n v : Nat) (h : v < 256 ^ n) : leValue (leBytes n v) = v := by
  induction n generalizing v with
  | zero => simp at h; simp [leBytes, leValue, h]
  | succ n ih =>
    have h' : v / 256 < 256 ^ n := by rw [Nat.pow_succ] at h; omega
    simp only [leBytes, leValue, ih _ h', BitVec.toNat_ofNat]
    omega

/-- Bytes are the bytes of the number they make. -/
theorem leBytes_leValue (bs : List Byte) : leBytes bs.length (leValue bs) = bs := by
  induction bs with
  | nil => rfl
  | cons b bs ih =>
    have hb := b.isLt
    simp only [List.length_cons, leBytes, leValue]
    rw [show (b.toNat + 256 * leValue bs) / 256 = leValue bs by omega, ih]
    congr 1
    apply BitVec.eq_of_toNat_eq
    simp only [BitVec.toNat_ofNat]
    omega

/-- A phase's code names it, and only it. -/
theorem Phase.ofCode_eq_some_iff (c : BitVec 4) (p : Phase) : Phase.ofCode c = some p ↔ p.code = c := by
  cases p <;> revert c <;> decide

/-- A word of format f, as a number, is below 2 to the format's width. -/
theorem CodeWord.toNat_lt (w : CodeWord) : w.toNat < 2 ^ w.format.bits := by
  rcases w with c | v | f
  · exact c.isLt
  · exact v.isLt
  · cases f <;> exact BitVec.isLt _

@[simp] theorem CodeWord.ofNat_format_toNat (w : CodeWord) : CodeWord.ofNat w.format w.toNat = w := by
  rcases w with c | v | f
  · simp [CodeWord.ofNat, CodeWord.toNat, CodeWord.format]
  · simp [CodeWord.ofNat, CodeWord.toNat, CodeWord.format]
  · cases f <;> simp [CodeWord.ofNat, CodeWord.toNat, CodeWord.format]

@[simp] theorem CodeWord.format_ofNat (f : Format) (v : Nat) : (CodeWord.ofNat f v).format = f := by cases f <;> rfl

theorem CodeWord.toNat_ofNat (f : Format) (v : Nat) (h : v < 2 ^ f.bits) : (CodeWord.ofNat f v).toNat = v := by
  cases f <;> simp only [CodeWord.ofNat, CodeWord.toNat, BitVec.toNat_ofNat] <;> exact Nat.mod_eq_of_lt h

/-- An OPCODE that decodes is the code of the operation. -/
theorem encode_of_decodeOpcode (c : BitVec 4) (i : Instr) (h : decodeOpcode c = .ok i) :
    i.wf = true ∧ encode i = .opcode c := by
  unfold decodeOpcode at h
  split at h
  all_goals first | (simp at h; done) | skip
  all_goals
    rename_i hc
    simp only [Except.ok.injEq] at h
    subst h
    refine ⟨rfl, ?_⟩
    simp only [encode, CodeWord.opcode.injEq]
    apply BitVec.eq_of_toNat_eq
    rw [hc]
    rfl

/-- A word that decodes is the encoding of a well-formed operation. -/
theorem encode_of_decode (w : CodeWord) (i : Instr) (h : decode w = .ok i) : i.wf = true ∧ encode i = w := by
  rcases w with c | v | f
  · exact encode_of_decodeOpcode c i h
  · simp only [decode] at h
    split at h <;> simp at h
    subst h
    exact ⟨by simpa [Instr.wf], rfl⟩
  · cases f <;> simp only [decode, Except.ok.injEq] at h <;> subst h <;> exact ⟨rfl, rfl⟩

end Sys2Proof
end

