-- ==== Sys2Proof/Laws/Memory.lean ====
section
/-! SUPPORT. Memory cells: read after write, and the canonical form. -/

namespace Sys2Proof.Machine

@[simp] theorem Memory.read_nil {w : Nat} (a : Nat) : Memory.read ([] : Memory w) a = none := rfl

@[simp] theorem Memory.wf_nil {w : Nat} : Memory.wf ([] : Memory w) = true := rfl

/-- A read after a write gives the value written at its address and the old value anywhere else. -/
theorem Memory.read_write {w : Nat} (m : Memory w) (a : Nat) (b : BitVec w) (c : Nat) :
    Memory.read (Memory.write m a b) c = if c = a then some b else Memory.read m c := by
  induction m with
  | nil => simp [Memory.write, Memory.read]
  | cons e m ih =>
    obtain ⟨k, v⟩ := e
    simp only [Memory.write]
    split
    · simp [Memory.read]
    · split
      · subst_vars
        simp only [Memory.read]
        split <;> simp_all
      · simp only [Memory.read, ih]
        by_cases hc : c = k
        · subst hc
          rw [if_pos rfl, if_pos rfl, if_neg (by omega)]
        · rw [if_neg hc, if_neg hc]

@[simp] theorem Memory.read_write_same {w : Nat} (m : Memory w) (a : Nat) (b : BitVec w) :
    Memory.read (Memory.write m a b) a = some b := by simp [Memory.read_write]

theorem Memory.read_write_other {w : Nat} (m : Memory w) (a : Nat) (b : BitVec w) (c : Nat) (h : c ≠ a) :
    Memory.read (Memory.write m a b) c = Memory.read m c := by simp [Memory.read_write, h]

/-- No address of a canonical list lies below its first one. -/
theorem Memory.wf_cons {w : Nat} (k : Nat) (v : BitVec w) (m : Memory w) :
    Memory.wf ((k, v) :: m) = true ↔ (∀ e ∈ m.head?, k < e.1) ∧ Memory.wf m = true := by
  cases m <;> simp [Memory.wf]

/-- The first entry after a write is the one written or the old first one. -/
theorem Memory.head_write {w : Nat} (m : Memory w) (a : Nat) (b : BitVec w) (e : Nat × BitVec w)
    (h : e ∈ (Memory.write m a b).head?) : e = (a, b) ∨ e ∈ m.head? := by
  cases m with
  | nil => simp_all [Memory.write]
  | cons x m =>
    simp only [Memory.write] at h
    split at h
    · simp_all
    · split at h <;> simp_all

/-- A write keeps the canonical form. -/
theorem Memory.wf_write {w : Nat} (m : Memory w) (a : Nat) (b : BitVec w) (h : Memory.wf m = true) :
    Memory.wf (Memory.write m a b) = true := by
  induction m with
  | nil => rfl
  | cons e m ih =>
    obtain ⟨k, v⟩ := e
    rw [Memory.wf_cons] at h
    simp only [Memory.write]
    split
    · rw [Memory.wf_cons, Memory.wf_cons]
      simp_all
    · split
      · subst_vars
        rw [Memory.wf_cons]
        exact h
      · rw [Memory.wf_cons]
        refine ⟨fun e he => ?_, ih h.2⟩
        rcases Memory.head_write m a b e he with rfl | he
        · dsimp only
          omega
        · exact h.1 e he

/-- Two canonical memories that read alike are equal: equal memories are equal data. -/
theorem Memory.eq_of_read_eq {w : Nat} (m n : Memory w) (hm : Memory.wf m = true) (hn : Memory.wf n = true)
    (h : ∀ a, Memory.read m a = Memory.read n a) : m = n := by
  have below : ∀ (l : Memory w) (k : Nat) (v : BitVec w), Memory.wf ((k, v) :: l) = true →
      ∀ a, a ≤ k → Memory.read l a = none := by
    intro l
    induction l with
    | nil => intros; rfl
    | cons e l ih =>
      intro k v hl a ha
      obtain ⟨k', v'⟩ := e
      rw [Memory.wf_cons] at hl
      have hk := hl.1 (k', v') (by simp)
      dsimp only at hk
      simp only [Memory.read]
      rw [if_neg (by omega)]
      exact ih k' v' hl.2 a (by omega)
  induction m generalizing n with
  | nil =>
    cases n with
    | nil => rfl
    | cons e n => simpa [Memory.read] using h e.1
  | cons e m ih =>
    obtain ⟨k, v⟩ := e
    cases n with
    | nil => simpa [Memory.read] using h k
    | cons e' n =>
      obtain ⟨k', v'⟩ := e'
      have hk : k = k' := by
        by_contra hne
        rcases Nat.lt_or_gt_of_ne hne with hlt | hlt
        · have := h k
          simp only [Memory.read, if_true, if_neg hne] at this
          rw [below n k' v' hn k (by omega)] at this
          simp at this
        · have := h k'
          simp only [Memory.read, if_true, if_neg (Ne.symm hne)] at this
          rw [below m k v hm k' (by omega)] at this
          simp at this
      subst hk
      have hv := h k
      simp only [Memory.read, if_true, Option.some.injEq] at hv
      subst hv
      congr 1
      refine ih n ((Memory.wf_cons _ _ _).mp hm).2 ((Memory.wf_cons _ _ _).mp hn).2 fun a => ?_
      by_cases ha : a = k
      · subst ha
        rw [below m a v hm a (Nat.le_refl _), below n a v hn a (Nat.le_refl _)]
      · have := h a
        simpa [Memory.read, ha] using this

/-- What a core read of one element can do. -/
theorem readCell_ok_iff {w : Nat} (sp : Space) (m : Memory w) (a : Nat) (v : BitVec w) :
    readCell sp m a = .ok v ↔ Memory.read m a = some v := by
  unfold readCell
  cases Memory.read m a <;> simp

theorem readCell_of_read {w : Nat} {sp : Space} {m : Memory w} {a : Nat} {v : BitVec w}
    (h : Memory.read m a = some v) : readCell sp m a = .ok v := (readCell_ok_iff sp m a v).mpr h

/-- A two-byte read is little-endian (R60). -/
theorem memRead_two {sp : Space} {m : Memory 8} {a : Nat} {b0 b1 : Byte} (h0 : Memory.read m a = some b0)
    (h1 : Memory.read m (a + 1) = some b1) : memRead sp m a 2 = .ok (b0.toNat + 256 * b1.toNat) := by
  simp [memRead, readCell_of_read h0, readCell_of_read h1]

/-- A four-byte read is little-endian (R60). -/
theorem memRead_four {sp : Space} {m : Memory 8} {a : Nat} {b0 b1 b2 b3 : Byte} (h0 : Memory.read m a = some b0)
    (h1 : Memory.read m (a + 1) = some b1) (h2 : Memory.read m (a + 2) = some b2)
    (h3 : Memory.read m (a + 3) = some b3) :
    memRead sp m a 4 = .ok (b0.toNat + 256 * (b1.toNat + 256 * (b2.toNat + 256 * b3.toNat))) := by
  simp [memRead, readCell_of_read h0, readCell_of_read h1, readCell_of_read h2, readCell_of_read h3]

end Sys2Proof.Machine
end

