-- ==== Sys2Proof/Laws/State.lean ====
section
/-! SUPPORT. One lemma per field for each shared update of the state, so that no proof unfolds a record update. -/

namespace Sys2Proof.Machine

@[simp] theorem goto_phase (p : Phase) (s : State) : (goto p s).phase = p := rfl
@[simp] theorem goto_errCode (p : Phase) (s : State) : (goto p s).errCode = s.errCode := rfl
@[simp] theorem goto_hdrValid (p : Phase) (s : State) : (goto p s).hdrValid = s.hdrValid := rfl
@[simp] theorem goto_width (p : Phase) (s : State) : (goto p s).width = s.width := rfl
@[simp] theorem goto_height (p : Phase) (s : State) : (goto p s).height = s.height := rfl
@[simp] theorem goto_npix (p : Phase) (s : State) : (goto p s).npix = s.npix := rfl
@[simp] theorem goto_dataSize (p : Phase) (s : State) : (goto p s).dataSize = s.dataSize := rfl
@[simp] theorem goto_idxLen (p : Phase) (s : State) : (goto p s).idxLen = s.idxLen := rfl
@[simp] theorem goto_outLen (p : Phase) (s : State) : (goto p s).outLen = s.outLen := rfl
@[simp] theorem goto_srcLen (p : Phase) (s : State) : (goto p s).srcLen = s.srcLen := rfl
@[simp] theorem goto_pal (p : Phase) (s : State) : (goto p s).pal = s.pal := rfl
@[simp] theorem goto_src (p : Phase) (s : State) : (goto p s).src = s.src := rfl
@[simp] theorem goto_pix (p : Phase) (s : State) : (goto p s).pix = s.pix := rfl
@[simp] theorem goto_idx (p : Phase) (s : State) : (goto p s).idx = s.idx := rfl
@[simp] theorem goto_out (p : Phase) (s : State) : (goto p s).out = s.out := rfl
@[simp] theorem goto_sinkOk (p : Phase) (s : State) : (goto p s).sinkOk = s.sinkOk := rfl
@[simp] theorem goto_inputs (p : Phase) (s : State) : (goto p s).inputs = s.inputs := rfl
@[simp] theorem goto_hostReply (p : Phase) (s : State) : (goto p s).hostReply = s.hostReply := rfl
@[simp] theorem goto_fnOut (p : Phase) (s : State) : (goto p s).fnOut = s.fnOut := rfl
@[simp] theorem goto_freeCount (p : Phase) (s : State) : (goto p s).freeCount = s.freeCount := rfl

@[simp] theorem raise_phase (e : ErrCode) (s : State) : (raise e s).phase = .fail := rfl
@[simp] theorem raise_errCode (e : ErrCode) (s : State) : (raise e s).errCode = e := rfl
@[simp] theorem raise_hdrValid (e : ErrCode) (s : State) : (raise e s).hdrValid = s.hdrValid := rfl
@[simp] theorem raise_width (e : ErrCode) (s : State) : (raise e s).width = s.width := rfl
@[simp] theorem raise_height (e : ErrCode) (s : State) : (raise e s).height = s.height := rfl
@[simp] theorem raise_npix (e : ErrCode) (s : State) : (raise e s).npix = s.npix := rfl
@[simp] theorem raise_dataSize (e : ErrCode) (s : State) : (raise e s).dataSize = s.dataSize := rfl
@[simp] theorem raise_idxLen (e : ErrCode) (s : State) : (raise e s).idxLen = s.idxLen := rfl
@[simp] theorem raise_outLen (e : ErrCode) (s : State) : (raise e s).outLen = 0 := rfl
@[simp] theorem raise_srcLen (e : ErrCode) (s : State) : (raise e s).srcLen = s.srcLen := rfl
@[simp] theorem raise_pal (e : ErrCode) (s : State) : (raise e s).pal = s.pal := rfl
@[simp] theorem raise_src (e : ErrCode) (s : State) : (raise e s).src = s.src := rfl
@[simp] theorem raise_pix (e : ErrCode) (s : State) : (raise e s).pix = s.pix := rfl
@[simp] theorem raise_idx (e : ErrCode) (s : State) : (raise e s).idx = s.idx := rfl
@[simp] theorem raise_out (e : ErrCode) (s : State) : (raise e s).out = s.out := rfl
@[simp] theorem raise_sinkOk (e : ErrCode) (s : State) : (raise e s).sinkOk = s.sinkOk := rfl
@[simp] theorem raise_inputs (e : ErrCode) (s : State) : (raise e s).inputs = s.inputs := rfl
@[simp] theorem raise_hostReply (e : ErrCode) (s : State) : (raise e s).hostReply = s.hostReply := rfl
@[simp] theorem raise_fnOut (e : ErrCode) (s : State) : (raise e s).fnOut = s.fnOut := rfl
@[simp] theorem raise_freeCount (e : ErrCode) (s : State) : (raise e s).freeCount = s.freeCount := rfl

@[simp] theorem startRun_phase (s : State) : (startRun s).phase = .chklen := rfl
@[simp] theorem startRun_errCode (s : State) : (startRun s).errCode = .noError := rfl
@[simp] theorem startRun_hdrValid (s : State) : (startRun s).hdrValid = false := rfl
@[simp] theorem startRun_width (s : State) : (startRun s).width = Config.freeDimension (2 * s.freeCount) := rfl
@[simp] theorem startRun_height (s : State) : (startRun s).height = Config.freeDimension (2 * s.freeCount + 1) := rfl
@[simp] theorem startRun_npix (s : State) : (startRun s).npix = (Config.freeNpix s.freeCount).toNat := rfl
@[simp] theorem startRun_dataSize (s : State) : (startRun s).dataSize = (Config.freeDataSize s.freeCount).toNat := rfl
@[simp] theorem startRun_idxLen (s : State) : (startRun s).idxLen = 0 := rfl
@[simp] theorem startRun_outLen (s : State) : (startRun s).outLen = 0 := rfl
@[simp] theorem startRun_srcLen (s : State) : (startRun s).srcLen = s.srcLen := rfl
@[simp] theorem startRun_pal (s : State) : (startRun s).pal = Config.freePalette s.freeCount := rfl
@[simp] theorem startRun_src (s : State) : (startRun s).src = s.src := rfl
@[simp] theorem startRun_pix (s : State) : (startRun s).pix = [] := rfl
@[simp] theorem startRun_idx (s : State) : (startRun s).idx = [] := rfl
@[simp] theorem startRun_out (s : State) : (startRun s).out = [] := rfl
@[simp] theorem startRun_sinkOk (s : State) : (startRun s).sinkOk = s.sinkOk := rfl
@[simp] theorem startRun_inputs (s : State) : (startRun s).inputs = s.inputs := rfl
@[simp] theorem startRun_hostReply (s : State) : (startRun s).hostReply = s.hostReply := rfl
@[simp] theorem startRun_fnOut (s : State) : (startRun s).fnOut = s.fnOut := rfl
@[simp] theorem startRun_freeCount (s : State) : (startRun s).freeCount = s.freeCount + 1 := rfl

@[simp] theorem assertReset_phase (s : State) : (assertReset s).phase = State.reset.phase := rfl
@[simp] theorem assertReset_errCode (s : State) : (assertReset s).errCode = State.reset.errCode := rfl
@[simp] theorem assertReset_hdrValid (s : State) : (assertReset s).hdrValid = State.reset.hdrValid := rfl
@[simp] theorem assertReset_width (s : State) : (assertReset s).width = State.reset.width := rfl
@[simp] theorem assertReset_height (s : State) : (assertReset s).height = State.reset.height := rfl
@[simp] theorem assertReset_npix (s : State) : (assertReset s).npix = State.reset.npix := rfl
@[simp] theorem assertReset_dataSize (s : State) : (assertReset s).dataSize = State.reset.dataSize := rfl
@[simp] theorem assertReset_idxLen (s : State) : (assertReset s).idxLen = State.reset.idxLen := rfl
@[simp] theorem assertReset_outLen (s : State) : (assertReset s).outLen = State.reset.outLen := rfl
@[simp] theorem assertReset_srcLen (s : State) : (assertReset s).srcLen = State.reset.srcLen := rfl
@[simp] theorem assertReset_pal (s : State) : (assertReset s).pal = State.reset.pal := rfl
@[simp] theorem assertReset_src (s : State) : (assertReset s).src = State.reset.src := rfl
@[simp] theorem assertReset_pix (s : State) : (assertReset s).pix = State.reset.pix := rfl
@[simp] theorem assertReset_idx (s : State) : (assertReset s).idx = State.reset.idx := rfl
@[simp] theorem assertReset_out (s : State) : (assertReset s).out = State.reset.out := rfl
@[simp] theorem assertReset_sinkOk (s : State) : (assertReset s).sinkOk = s.sinkOk := rfl
@[simp] theorem assertReset_inputs (s : State) : (assertReset s).inputs = s.inputs := rfl
@[simp] theorem assertReset_hostReply (s : State) : (assertReset s).hostReply = s.hostReply := rfl
@[simp] theorem assertReset_fnOut (s : State) : (assertReset s).fnOut = s.fnOut := rfl
@[simp] theorem assertReset_freeCount (s : State) : (assertReset s).freeCount = s.freeCount := rfl

@[simp] theorem emit_phase (b : Byte) (s : State) : (emit b s).phase = s.phase := rfl
@[simp] theorem emit_errCode (b : Byte) (s : State) : (emit b s).errCode = s.errCode := rfl
@[simp] theorem emit_hdrValid (b : Byte) (s : State) : (emit b s).hdrValid = s.hdrValid := rfl
@[simp] theorem emit_width (b : Byte) (s : State) : (emit b s).width = s.width := rfl
@[simp] theorem emit_height (b : Byte) (s : State) : (emit b s).height = s.height := rfl
@[simp] theorem emit_npix (b : Byte) (s : State) : (emit b s).npix = s.npix := rfl
@[simp] theorem emit_dataSize (b : Byte) (s : State) : (emit b s).dataSize = s.dataSize := rfl
@[simp] theorem emit_idxLen (b : Byte) (s : State) : (emit b s).idxLen = s.idxLen := rfl
@[simp] theorem emit_outLen (b : Byte) (s : State) : (emit b s).outLen = s.outLen + 1 := rfl
@[simp] theorem emit_srcLen (b : Byte) (s : State) : (emit b s).srcLen = s.srcLen := rfl
@[simp] theorem emit_pal (b : Byte) (s : State) : (emit b s).pal = s.pal := rfl
@[simp] theorem emit_src (b : Byte) (s : State) : (emit b s).src = s.src := rfl
@[simp] theorem emit_pix (b : Byte) (s : State) : (emit b s).pix = s.pix := rfl
@[simp] theorem emit_idx (b : Byte) (s : State) : (emit b s).idx = s.idx := rfl
@[simp] theorem emit_out (b : Byte) (s : State) : (emit b s).out = Memory.write s.out s.outLen b := rfl
@[simp] theorem emit_sinkOk (b : Byte) (s : State) : (emit b s).sinkOk = s.sinkOk := rfl
@[simp] theorem emit_inputs (b : Byte) (s : State) : (emit b s).inputs = s.inputs := rfl
@[simp] theorem emit_hostReply (b : Byte) (s : State) : (emit b s).hostReply = s.hostReply := rfl
@[simp] theorem emit_fnOut (b : Byte) (s : State) : (emit b s).fnOut = s.fnOut := rfl
@[simp] theorem emit_freeCount (b : Byte) (s : State) : (emit b s).freeCount = s.freeCount := rfl

@[simp] theorem setIdxLen_phase (s : State) : (setIdxLen s).phase = s.phase := rfl
@[simp] theorem setIdxLen_errCode (s : State) : (setIdxLen s).errCode = s.errCode := rfl
@[simp] theorem setIdxLen_hdrValid (s : State) : (setIdxLen s).hdrValid = s.hdrValid := rfl
@[simp] theorem setIdxLen_width (s : State) : (setIdxLen s).width = s.width := rfl
@[simp] theorem setIdxLen_height (s : State) : (setIdxLen s).height = s.height := rfl
@[simp] theorem setIdxLen_npix (s : State) : (setIdxLen s).npix = s.npix := rfl
@[simp] theorem setIdxLen_dataSize (s : State) : (setIdxLen s).dataSize = s.dataSize := rfl
@[simp] theorem setIdxLen_idxLen (s : State) : (setIdxLen s).idxLen = 2 * s.dataSize := rfl
@[simp] theorem setIdxLen_outLen (s : State) : (setIdxLen s).outLen = s.outLen := rfl
@[simp] theorem setIdxLen_srcLen (s : State) : (setIdxLen s).srcLen = s.srcLen := rfl
@[simp] theorem setIdxLen_pal (s : State) : (setIdxLen s).pal = s.pal := rfl
@[simp] theorem setIdxLen_src (s : State) : (setIdxLen s).src = s.src := rfl
@[simp] theorem setIdxLen_pix (s : State) : (setIdxLen s).pix = s.pix := rfl
@[simp] theorem setIdxLen_idx (s : State) : (setIdxLen s).idx = s.idx := rfl
@[simp] theorem setIdxLen_out (s : State) : (setIdxLen s).out = s.out := rfl
@[simp] theorem setIdxLen_sinkOk (s : State) : (setIdxLen s).sinkOk = s.sinkOk := rfl
@[simp] theorem setIdxLen_inputs (s : State) : (setIdxLen s).inputs = s.inputs := rfl
@[simp] theorem setIdxLen_hostReply (s : State) : (setIdxLen s).hostReply = s.hostReply := rfl
@[simp] theorem setIdxLen_fnOut (s : State) : (setIdxLen s).fnOut = s.fnOut := rfl
@[simp] theorem setIdxLen_freeCount (s : State) : (setIdxLen s).freeCount = s.freeCount := rfl

@[simp] theorem withInputs_phase (s : State) (rest : List Input) : (withInputs s rest).phase = s.phase := rfl
@[simp] theorem withInputs_errCode (s : State) (rest : List Input) : (withInputs s rest).errCode = s.errCode := rfl
@[simp] theorem withInputs_hdrValid (s : State) (rest : List Input) : (withInputs s rest).hdrValid = s.hdrValid := rfl
@[simp] theorem withInputs_width (s : State) (rest : List Input) : (withInputs s rest).width = s.width := rfl
@[simp] theorem withInputs_height (s : State) (rest : List Input) : (withInputs s rest).height = s.height := rfl
@[simp] theorem withInputs_npix (s : State) (rest : List Input) : (withInputs s rest).npix = s.npix := rfl
@[simp] theorem withInputs_dataSize (s : State) (rest : List Input) : (withInputs s rest).dataSize = s.dataSize := rfl
@[simp] theorem withInputs_idxLen (s : State) (rest : List Input) : (withInputs s rest).idxLen = s.idxLen := rfl
@[simp] theorem withInputs_outLen (s : State) (rest : List Input) : (withInputs s rest).outLen = s.outLen := rfl
@[simp] theorem withInputs_srcLen (s : State) (rest : List Input) : (withInputs s rest).srcLen = s.srcLen := rfl
@[simp] theorem withInputs_pal (s : State) (rest : List Input) : (withInputs s rest).pal = s.pal := rfl
@[simp] theorem withInputs_src (s : State) (rest : List Input) : (withInputs s rest).src = s.src := rfl
@[simp] theorem withInputs_pix (s : State) (rest : List Input) : (withInputs s rest).pix = s.pix := rfl
@[simp] theorem withInputs_idx (s : State) (rest : List Input) : (withInputs s rest).idx = s.idx := rfl
@[simp] theorem withInputs_out (s : State) (rest : List Input) : (withInputs s rest).out = s.out := rfl
@[simp] theorem withInputs_sinkOk (s : State) (rest : List Input) : (withInputs s rest).sinkOk = s.sinkOk := rfl
@[simp] theorem withInputs_inputs (s : State) (rest : List Input) : (withInputs s rest).inputs = rest := rfl
@[simp] theorem withInputs_hostReply (s : State) (rest : List Input) : (withInputs s rest).hostReply = s.hostReply := rfl
@[simp] theorem withInputs_fnOut (s : State) (rest : List Input) : (withInputs s rest).fnOut = s.fnOut := rfl
@[simp] theorem withInputs_freeCount (s : State) (rest : List Input) : (withInputs s rest).freeCount = s.freeCount := rfl

@[simp] theorem sinkAnswers_phase (ok : Bool) (s : State) : (sinkAnswers ok s).phase = s.phase := rfl
@[simp] theorem sinkAnswers_errCode (ok : Bool) (s : State) : (sinkAnswers ok s).errCode = s.errCode := rfl
@[simp] theorem sinkAnswers_hdrValid (ok : Bool) (s : State) : (sinkAnswers ok s).hdrValid = s.hdrValid := rfl
@[simp] theorem sinkAnswers_width (ok : Bool) (s : State) : (sinkAnswers ok s).width = s.width := rfl
@[simp] theorem sinkAnswers_height (ok : Bool) (s : State) : (sinkAnswers ok s).height = s.height := rfl
@[simp] theorem sinkAnswers_npix (ok : Bool) (s : State) : (sinkAnswers ok s).npix = s.npix := rfl
@[simp] theorem sinkAnswers_dataSize (ok : Bool) (s : State) : (sinkAnswers ok s).dataSize = s.dataSize := rfl
@[simp] theorem sinkAnswers_idxLen (ok : Bool) (s : State) : (sinkAnswers ok s).idxLen = s.idxLen := rfl
@[simp] theorem sinkAnswers_outLen (ok : Bool) (s : State) : (sinkAnswers ok s).outLen = s.outLen := rfl
@[simp] theorem sinkAnswers_srcLen (ok : Bool) (s : State) : (sinkAnswers ok s).srcLen = s.srcLen := rfl
@[simp] theorem sinkAnswers_pal (ok : Bool) (s : State) : (sinkAnswers ok s).pal = s.pal := rfl
@[simp] theorem sinkAnswers_src (ok : Bool) (s : State) : (sinkAnswers ok s).src = s.src := rfl
@[simp] theorem sinkAnswers_pix (ok : Bool) (s : State) : (sinkAnswers ok s).pix = s.pix := rfl
@[simp] theorem sinkAnswers_idx (ok : Bool) (s : State) : (sinkAnswers ok s).idx = s.idx := rfl
@[simp] theorem sinkAnswers_out (ok : Bool) (s : State) : (sinkAnswers ok s).out = s.out := rfl
@[simp] theorem sinkAnswers_sinkOk (ok : Bool) (s : State) : (sinkAnswers ok s).sinkOk = ok := rfl
@[simp] theorem sinkAnswers_inputs (ok : Bool) (s : State) : (sinkAnswers ok s).inputs = s.inputs := rfl
@[simp] theorem sinkAnswers_hostReply (ok : Bool) (s : State) : (sinkAnswers ok s).hostReply = s.hostReply := rfl
@[simp] theorem sinkAnswers_fnOut (ok : Bool) (s : State) : (sinkAnswers ok s).fnOut = s.fnOut := rfl
@[simp] theorem sinkAnswers_freeCount (ok : Bool) (s : State) : (sinkAnswers ok s).freeCount = s.freeCount := rfl

end Sys2Proof.Machine
end

