-- ==== Sys2Proof/Laws/Ops.lean ====
section
/-! SUPPORT. What the loops, Emit and the ends of an operation do. -/

namespace Sys2Proof.Machine

/-- An ascending loop whose rounds all complete completes, and what each round carries on holds at the end. -/
theorem forUp_completes {α : Type} {body : Nat → α → Except Fault α} (P : Nat → α → Prop) (count start : Nat) (x : α)
    (hx : P start x)
    (hbody : ∀ k y, start ≤ k → k < start + count → P k y → ∃ z, body k y = .ok z ∧ P (k + 1) z) :
    ∃ z, forUp body count start x = .ok z ∧ P (start + count) z := by
  induction count generalizing start x with
  | zero => exact ⟨x, rfl, hx⟩
  | succ n ih =>
    obtain ⟨y, hy, hPy⟩ := hbody start x (Nat.le_refl _) (by omega) hx
    obtain ⟨z, hz, hPz⟩ := ih (start + 1) y hPy fun k w h1 h2 hw => hbody k w (by omega) (by omega) hw
    refine ⟨z, ?_, ?_⟩
    · simp only [forUp, hy, hz]
    · rw [show start + (n + 1) = start + 1 + n by omega]
      exact hPz

/-- What every round of an ascending loop keeps, the loop keeps. -/
theorem forUp_keeps {α : Type} {body : Nat → α → Except Fault α} (P : α → Prop)
    (hbody : ∀ k y z, body k y = .ok z → P y → P z) (count start : Nat) (x z : α)
    (h : forUp body count start x = .ok z) (hx : P x) : P z := by
  induction count generalizing start x with
  | zero => simp only [forUp, Except.ok.injEq] at h; exact h ▸ hx
  | succ n ih =>
    simp only [forUp] at h
    split at h
    · simp at h
    · rename_i y hy
      exact ih (start + 1) y h (hbody start x y hy hx)

/-- A descending loop whose rounds all complete completes. P is about the number of rounds still to come. -/
theorem forDown_completes {α : Type} {body : Nat → α → Except Fault α} (P : Nat → α → Prop) (count : Nat) (x : α)
    (hx : P count x) (hbody : ∀ k y, k < count → P (k + 1) y → ∃ z, body k y = .ok z ∧ P k z) :
    ∃ z, forDown body count x = .ok z ∧ P 0 z := by
  induction count generalizing x with
  | zero => exact ⟨x, rfl, hx⟩
  | succ n ih =>
    obtain ⟨y, hy, hPy⟩ := hbody n x (by omega) hx
    obtain ⟨z, hz, hPz⟩ := ih y hPy fun k w h1 hw => hbody k w (by omega) hw
    exact ⟨z, by simp only [forDown, hy, hz], hPz⟩

/-- What every round of a descending loop keeps, the loop keeps. -/
theorem forDown_keeps {α : Type} {body : Nat → α → Except Fault α} (P : α → Prop)
    (hbody : ∀ k y z, body k y = .ok z → P y → P z) (count : Nat) (x z : α)
    (h : forDown body count x = .ok z) (hx : P x) : P z := by
  induction count generalizing x with
  | zero => simp only [forDown, Except.ok.injEq] at h; exact h ▸ hx
  | succ n ih =>
    simp only [forDown] at h
    split at h
    · simp at h
    · rename_i y hy
      exact ih y h (hbody n x y hy hx)

/-- An ascending loop stops with the reason of the first round that stops, the k-th; P is what the rounds before carry on. -/
theorem forUp_stops {α : Type} {body : Nat → α → Except Fault α} (P : Nat → α → Prop) (e : Fault) (count start k : Nat)
    (x : α) (hk : k < count) (hx : P start x)
    (hbody : ∀ j y, start ≤ j → j < start + k → P j y → ∃ z, body j y = .ok z ∧ P (j + 1) z)
    (hstop : ∀ y, P (start + k) y → body (start + k) y = .error e) : forUp body count start x = .error e := by
  induction count generalizing start k x with
  | zero => omega
  | succ n ih =>
    cases k with
    | zero => simp only [forUp, show body start x = .error e from hstop x hx]
    | succ k =>
      obtain ⟨y, hy, hPy⟩ := hbody start x (Nat.le_refl _) (by omega) hx
      simp only [forUp, hy]
      refine ih (start + 1) k y (by omega) hPy (fun j w h1 h2 hw => hbody j w (by omega) (by omega) hw) ?_
      rw [show start + 1 + k = start + (k + 1) by omega]
      exact hstop

/-- A descending loop stops with the reason of the first round that stops, that of k. -/
theorem forDown_stops {α : Type} {body : Nat → α → Except Fault α} (P : Nat → α → Prop) (e : Fault) (count k : Nat) (x : α)
    (hk : k < count) (hx : P count x) (hbody : ∀ j y, k < j → j < count → P (j + 1) y → ∃ z, body j y = .ok z ∧ P j z)
    (hstop : ∀ y, P (k + 1) y → body k y = .error e) : forDown body count x = .error e := by
  induction count generalizing x with
  | zero => omega
  | succ n ih =>
    rcases Nat.lt_or_eq_of_le (Nat.le_of_lt_succ hk) with h | h
    · obtain ⟨y, hy, hPy⟩ := hbody n x h (by omega) hx
      simp only [forDown, hy]
      exact ih y h hPy fun j w h1 h2 hw => hbody j w h1 (by omega) hw
    · subst h
      simp only [forDown, hstop x hx]

/-- A read of n bytes stops at the first of them that holds no value. -/
theorem memRead_unwritten {sp : Space} {m : Memory 8} (n a k : Nat) (hk : k < n) (h : Memory.read m (a + k) = none)
    (hb : ∀ j, j < k → (Memory.read m (a + j)).isSome) : memRead sp m a n = .error (.unwrittenCell sp (a + k)) := by
  induction n generalizing a k with
  | zero => omega
  | succ n ih =>
    cases k with
    | zero =>
      rw [Nat.add_zero] at h
      simp only [memRead, readCell, h, Nat.add_zero]
    | succ k =>
      obtain ⟨b, hb0⟩ := Option.isSome_iff_exists.mp (hb 0 (by omega))
      rw [Nat.add_zero] at hb0
      rw [show a + (k + 1) = a + 1 + k by omega] at h ⊢
      have hr := ih (a + 1) k (by omega) h fun j hj => by
        rw [show a + 1 + j = a + (j + 1) by omega]
        exact hb (j + 1) (by omega)
      simp only [memRead, readCell, hb0, hr]

/-- `finish` answers a next state exactly when the work completed. -/
theorem finish_next_iff (p : Phase) (r : Except Fault State) (t : State) :
    finish p r = .next t ↔ ∃ s, r = .ok s ∧ t = goto p s := by
  cases r with
  | error e => simp [finish]
  | ok s => simp [finish, eq_comm]

/-- The state after a list of bytes is emitted, first byte first. -/
def emitList : List Byte → State → State
  | [], s => s
  | b :: bs, s => emitList bs (emit b s)

/-- Emitting touches OUT and OUT_LEN alone. -/
theorem emitList_frame (bs : List Byte) (s : State) :
    emitList bs s = { s with out := (emitList bs s).out, outLen := s.outLen + bs.length } := by
  induction bs generalizing s with
  | nil => rfl
  | cons b bs ih =>
    rw [emitList, ih]
    simp only [emit, List.length_cons]
    congr 1
    omega

@[simp] theorem emitList_outLen (bs : List Byte) (s : State) : (emitList bs s).outLen = s.outLen + bs.length := by
  rw [emitList_frame]

/-- What OUT reads as after a list of bytes is emitted. -/
theorem emitList_read (bs : List Byte) (s : State) (a : Nat) :
    Memory.read (emitList bs s).out a =
      if s.outLen ≤ a ∧ a < s.outLen + bs.length then bs[a - s.outLen]? else Memory.read s.out a := by
  induction bs generalizing s with
  | nil => simp only [emitList, List.length_nil, Nat.add_zero]; rw [if_neg (by omega)]
  | cons b bs ih =>
    rw [emitList, ih]
    simp only [emit_outLen, emit_out, List.length_cons, Memory.read_write]
    by_cases h1 : s.outLen = a
    · subst h1
      rw [if_neg (by omega), if_pos rfl, if_pos (by omega)]
      simp
    · by_cases h2 : s.outLen + 1 ≤ a ∧ a < s.outLen + 1 + bs.length
      · rw [if_pos h2, if_pos (by omega), show a - s.outLen = (a - (s.outLen + 1)) + 1 by omega, List.getElem?_cons_succ]
      · rw [if_neg h2, if_neg (by omega), if_neg (by omega)]

/-- Emitting keeps OUT canonical. -/
theorem emitList_wf (bs : List Byte) (s : State) (h : Memory.wf s.out = true) :
    Memory.wf (emitList bs s).out = true := by
  induction bs generalizing s with
  | nil => exact h
  | cons b bs ih => exact ih (emit b s) (Memory.wf_write _ _ _ h)

theorem emitRGB_eq (c : RGB) (s : State) : emitRGB c s = emitList [c.r, c.g, c.b] s := rfl

/-- The bytes of the output header as a list (R96). -/
def headerList (c : Params) (s : State) : List Byte :=
  [0x42, 0x4D] ++ [0, 1, 2, 3].map (byteOf (54 + 3 * s.npix)) ++ [0, 1].map (byteOf 0) ++ [0, 1].map (byteOf 0)
    ++ [0, 1, 2, 3].map (byteOf 54) ++ [0, 1, 2, 3].map (byteOf 40)
    ++ [0, 1, 2, 3].map (byteOf s.width.toNat) ++ [0, 1, 2, 3].map (byteOf s.height.toNat)
    ++ [0, 1].map (byteOf 1) ++ [0, 1].map (byteOf 24) ++ [0, 1, 2, 3].map (byteOf 0)
    ++ [0, 1, 2, 3].map (byteOf c.sizeImageField)
    ++ [0, 1, 2, 3].map (byteOf 0) ++ [0, 1, 2, 3].map (byteOf 0)
    ++ [0, 1, 2, 3].map (byteOf 0) ++ [0, 1, 2, 3].map (byteOf 0)

/-- EMITHDR's bytes are the header's. -/
theorem emitHeader_eq (c : Params) (s : State) : emitHeader c s = emitList (headerList c s) s := by
  simp only [emitHeader, emit32, emit16, emit_npix, emit_width, emit_height, headerList, List.map_cons, List.map_nil,
    List.cons_append, List.nil_append, emitList, Config.outHdrSize, Config.outInfoSize, Config.outBpp]

@[simp] theorem headerList_length (c : Params) (s : State) : (headerList c s).length = 54 := by
  simp [headerList]

end Sys2Proof.Machine
end

