-- ==== Sys2Proof/Laws/Exec.lean ====
section
/-! SUPPORT. What each operation's loop does, once; what each operation can do when it answers a next state. -/

namespace Sys2Proof.Machine

/-- BUSY is the negation of being in a halt state. -/
theorem busy_iff (s : State) : busy s = true ↔ ¬ Halted s := by
  unfold busy Halted
  cases s.phase <;> decide

theorem busy_false_iff (s : State) : busy s = false ↔ Halted s := by
  rw [← not_iff_not, ← busy_iff]
  simp

theorem doneFlag_iff (s : State) : doneFlag s = true ↔ s.phase = .done := by
  unfold doneFlag
  cases s.phase <;> decide

@[simp] theorem busy_withInputs (s : State) (rest : List Input) : busy (withInputs s rest) = busy s := rfl

@[simp] theorem doneFlag_withInputs (s : State) (rest : List Input) : doneFlag (withInputs s rest) = doneFlag s := rfl

/-- The scaled channel, without the truncation to 8 bits, which drops nothing (R130). -/
theorem scale5_toNat (v : BitVec 5) : (scale5 v).toNat = v.toNat * 255 / 31 := by
  have := v.isLt
  simp only [scale5, BitVec.toNat_ofNat]
  omega

theorem lo_eq (b : Byte) : lo b = b.extractLsb' 0 4 := by
  revert b
  decide

theorem hi_eq (b : Byte) : hi b = b.extractLsb' 4 4 := by
  revert b
  decide

/-- Two bytes, low one first, as a 16-bit word. -/
theorem word_of_two (b0 b1 : Byte) : BitVec.ofNat 16 (b0.toNat + 256 * b1.toNat) = b1 ++ b0 := by
  have := b0.isLt
  have := b1.isLt
  apply BitVec.eq_of_toNat_eq
  simp only [BitVec.toNat_append, BitVec.toNat_ofNat]
  rw [← Nat.shiftLeft_add_eq_or_of_lt (by omega)]
  simp only [Nat.shiftLeft_eq]
  omega

/-- Four bytes, low one first, as a 32-bit word. -/
theorem word_of_four (b0 b1 b2 b3 : Byte) :
    BitVec.ofNat 32 (b0.toNat + 256 * (b1.toNat + 256 * (b2.toNat + 256 * b3.toNat))) = b3 ++ b2 ++ b1 ++ b0 := by
  have := b0.isLt
  have := b1.isLt
  have := b2.isLt
  have := b3.isLt
  apply BitVec.eq_of_toNat_eq
  simp only [BitVec.toNat_append, BitVec.toNat_ofNat]
  rw [← Nat.shiftLeft_add_eq_or_of_lt (by omega), ← Nat.shiftLeft_add_eq_or_of_lt (by omega),
    ← Nat.shiftLeft_add_eq_or_of_lt (by omega)]
  simp only [Nat.shiftLeft_eq]
  omega

/-- FLD32 on loaded bytes. -/
theorem fld32_of_reads {m : Memory 8} {a : Nat} {b0 b1 b2 b3 : Byte} (h0 : Memory.read m a = some b0)
    (h1 : Memory.read m (a + 1) = some b1) (h2 : Memory.read m (a + 2) = some b2)
    (h3 : Memory.read m (a + 3) = some b3) : fld32 m a = .ok (b3 ++ b2 ++ b1 ++ b0) := by
  simp only [fld32, memRead_four h0 h1 h2 h3, word_of_four]

/-- LDPIX's loop over loaded bytes: PIX alone changes, and only its first DATASIZE cells. -/
theorem copyPix_loop (s : State) (h : ∀ k, k < s.dataSize → (Memory.read s.src (24 + k)).isSome) :
    ∃ m : Memory 8, forUp copyPixByte s.dataSize 0 s = .ok { s with pix := m } ∧
      (∀ k, k < s.dataSize → Memory.read m k = Memory.read s.src (24 + k)) ∧
      ∀ a, s.dataSize ≤ a → Memory.read m a = Memory.read s.pix a := by
  obtain ⟨z, hz, m, rfl, h1, h2⟩ := forUp_completes (body := copyPixByte)
    (fun k t => ∃ m, t = { s with pix := m } ∧ (∀ j, j < k → Memory.read m j = Memory.read s.src (24 + j)) ∧
      ∀ a, k ≤ a → Memory.read m a = Memory.read s.pix a) s.dataSize 0 s ⟨s.pix, rfl, by simp, by simp⟩
    (by
      rintro k _ - hk ⟨m, rfl, h1, h2⟩
      obtain ⟨b, hb⟩ := Option.isSome_iff_exists.mp (h k (by omega))
      have e : copyPixByte k { s with pix := m } = .ok { s with pix := Memory.write m k b } := by
        simp only [copyPixByte, Config.hdrSize, readCell_of_read hb]
      refine ⟨_, e, _, rfl, ?_, ?_⟩
      · intro j hj
        rw [Memory.read_write]
        split
        · rename_i e; rw [e, hb]
        · exact h1 j (by omega)
      · intro a ha
        rw [Memory.read_write_other _ _ _ _ (by omega)]
        exact h2 a (by omega))
  rw [Nat.zero_add] at h1 h2
  exact ⟨m, hz, h1, h2⟩

/-- LDPAL's loop over loaded bytes: PAL alone changes, entry i to the colour of the i-th word. -/
theorem loadPal_loop (s : State) (b : Nat → Byte) (hl : 32 ≤ s.srcLen.toNat)
    (h : ∀ j, j < 32 → Memory.read s.src (s.srcLen.toNat - 32 + j) = some (b j)) :
    ∃ pal : Vector RGB 16, forUp loadPalEntry 16 0 s = .ok { s with pal := pal } ∧
      ∀ i (h : i < 16), pal[i] = cvt555 (b (2 * i + 1) ++ b (2 * i)) := by
  obtain ⟨z, hz, m, rfl, h1⟩ := forUp_completes (body := loadPalEntry)
    (fun k t => ∃ m, t = { s with pal := m } ∧ ∀ j (_ : j < 16), j < k → m[j] = cvt555 (b (2 * j + 1) ++ b (2 * j)))
    16 0 s ⟨s.pal, rfl, by simp⟩
    (by
      rintro k _ - hk ⟨m, rfl, h1⟩
      have e0 := h (2 * k) (by omega)
      have e1 := h (2 * k + 1) (by omega)
      have e : loadPalEntry k { s with pal := m } =
          .ok { s with pal := m.setIfInBounds k (cvt555 (b (2 * k + 1) ++ b (2 * k))) } := by
        simp only [loadPalEntry, palWord, Config.palBytes, if_neg (Nat.not_lt.mpr hl), memRead_two e0 e1, word_of_two]
      refine ⟨_, e, _, rfl, ?_⟩
      intro j hj hjk
      rw [Vector.getElem_setIfInBounds]
      split
      · rename_i e; subst e; rfl
      · exact h1 j hj (by omega))
  exact ⟨m, hz, fun i hi => h1 i hi (by omega)⟩

/-- UNPACK's loop over written bytes: IDX alone changes, and only its first 2 × DATASIZE elements. -/
theorem unpackByte_loop (s : State) (h : ∀ k, k < s.dataSize → (Memory.read s.pix k).isSome) :
    ∃ m : Memory 4, forUp unpackByte s.dataSize 0 s = .ok { s with idx := m } ∧
      (∀ k b, k < s.dataSize → Memory.read s.pix k = some b →
        Memory.read m (2 * k) = some (lo b) ∧ Memory.read m (2 * k + 1) = some (hi b)) ∧
      ∀ a, 2 * s.dataSize ≤ a → Memory.read m a = Memory.read s.idx a := by
  obtain ⟨z, hz, m, rfl, h1, h2⟩ := forUp_completes (body := unpackByte)
    (fun k t => ∃ m, t = { s with idx := m } ∧ (∀ j b, j < k → Memory.read s.pix j = some b →
        Memory.read m (2 * j) = some (lo b) ∧ Memory.read m (2 * j + 1) = some (hi b)) ∧
      ∀ a, 2 * k ≤ a → Memory.read m a = Memory.read s.idx a) s.dataSize 0 s ⟨s.idx, rfl, by simp, by simp⟩
    (by
      rintro k _ - hk ⟨m, rfl, h1, h2⟩
      obtain ⟨b, hb⟩ := Option.isSome_iff_exists.mp (h k (by omega))
      have e : unpackByte k { s with idx := m } =
          .ok { s with idx := Memory.write (Memory.write m (2 * k) (lo b)) (2 * k + 1) (hi b) } := by
        simp only [unpackByte, readCell_of_read hb, unpk]
      refine ⟨_, e, _, rfl, ?_, ?_⟩
      · intro j c hj hc
        simp only [Memory.read_write]
        by_cases e : j = k
        · subst e
          rw [hb] at hc
          cases hc
          rw [if_neg (by omega), if_pos rfl, if_pos rfl]
          exact ⟨rfl, rfl⟩
        · have := h1 j c (by omega) hc
          rw [if_neg (by omega), if_neg (by omega), if_neg (by omega), if_neg (by omega)]
          exact this
      · intro a ha
        rw [Memory.read_write_other _ _ _ _ (by omega), Memory.read_write_other _ _ _ _ (by omega)]
        exact h2 a (by omega))
  rw [Nat.zero_add] at h1 h2
  exact ⟨m, hz, h1, h2⟩

/-- q pixels with the colours col have been appended to OUT since s, and nothing else has changed. -/
def PixelsAppended (s : State) (col : Nat → RGB) (q : Nat) (t : State) : Prop :=
  ∃ m, t = { s with out := m, outLen := s.outLen + 3 * q } ∧
    (∀ p, p < q → Memory.read m (s.outLen + 3 * p) = some (col p).r ∧
      Memory.read m (s.outLen + 3 * p + 1) = some (col p).g ∧ Memory.read m (s.outLen + 3 * p + 2) = some (col p).b) ∧
    ∀ a, a < s.outLen ∨ s.outLen + 3 * q ≤ a → Memory.read m a = Memory.read s.out a

/-- One more pixel. -/
theorem PixelsAppended.push {s t : State} {col : Nat → RGB} {q : Nat} (h : PixelsAppended s col q t) :
    PixelsAppended s col (q + 1) (emitRGB (col q) t) := by
  obtain ⟨m, rfl, h1, h2⟩ := h
  refine ⟨_, by rw [emitRGB_eq, emitList_frame]; rfl, ?_, ?_⟩
  · intro p hp
    simp only [emitList_read, List.length_cons, List.length_nil]
    by_cases e : p = q
    · subst e
      refine ⟨?_, ?_, ?_⟩ <;> rw [if_pos (by omega)]
      · rw [Nat.sub_self]; rfl
      · rw [show s.outLen + 3 * p + 1 - (s.outLen + 3 * p) = 1 by omega]; rfl
      · rw [show s.outLen + 3 * p + 2 - (s.outLen + 3 * p) = 2 by omega]; rfl
    · rw [if_neg (by omega), if_neg (by omega), if_neg (by omega)]
      exact h1 p (by omega)
  · intro a ha
    simp only [emitList_read, List.length_cons, List.length_nil]
    rw [if_neg (by omega)]
    exact h2 a (by omega)

/-- EMITPIX's two loops, when every look-up is answered: output pixel p shows column p mod WIDTH of row
HEIGHT − 1 − (p div WIDTH). -/
theorem emitPixels_loop (c : Params) (s : State) (col : Nat → RGB)
    (hc : ∀ p, p < loopCount s.width * loopCount s.height → ∃ i,
      idxAt c ((loopCount s.height - 1 - p / loopCount s.width) * loopCount s.width + p % loopCount s.width) s = .ok i ∧
      resolve c i s.pal = col p) :
    ∃ t, forDown (emitRow c) (loopCount s.height) s = .ok t ∧
      PixelsAppended s col (loopCount s.width * loopCount s.height) t := by
  generalize hW : loopCount s.width = W at *
  generalize hH : loopCount s.height = H at *
  obtain ⟨t, ht, hq⟩ := forDown_completes (body := emitRow c) (fun k t => PixelsAppended s col (W * (H - k)) t) H s
    ⟨s.out, by simp, by simp, fun a _ => rfl⟩
    (by
      intro y u hy hu
      have hw : loopCount u.width = W := by obtain ⟨m, rfl, -, -⟩ := hu; exact hW
      obtain ⟨z, hz, hz'⟩ := forUp_completes (body := emitPixel c y)
        (fun x t => PixelsAppended s col (W * (H - (y + 1)) + x) t) W 0 u hu
        (by
          intro x v _ hx hv
          have hp : W * (H - (y + 1)) + x < W * H := by
            have : W * (H - (y + 1)) + W ≤ W * H := by
              rw [← Nat.mul_succ]
              exact Nat.mul_le_mul_left _ (by omega)
            omega
          obtain ⟨i, hi, hr⟩ := hc _ hp
          have hW0 : 0 < W := by omega
          have e1 : (W * (H - (y + 1)) + x) / W = H - (y + 1) := by
            rw [Nat.mul_add_div hW0, Nat.div_eq_of_lt (by omega), Nat.add_zero]
          have e2 : (W * (H - (y + 1)) + x) % W = x := by
            rw [Nat.mul_add_mod, Nat.mod_eq_of_lt (by omega)]
          rw [e1, e2, show H - 1 - (H - (y + 1)) = y by omega] at hi
          have hv' := hv
          obtain ⟨m, rfl, -, -⟩ := hv'
          refine ⟨_, ?_, hv.push⟩
          have hi' : idxAt c (flatPixel (loopCount s.width) y x)
              { s with out := m, outLen := s.outLen + 3 * (W * (H - (y + 1)) + x) } = .ok i := by
            rw [hW]
            exact hi
          simp only [emitPixel]
          rw [hi']
          simp only [hr])
      refine ⟨z, ?_, ?_⟩
      · rw [emitRow, hw]
        exact hz
      · rw [Nat.zero_add, ← Nat.mul_succ, show (H - (y + 1)).succ = H - y by omega] at hz'
        exact hz')
  exact ⟨t, ht, by simpa using hq⟩

/-- A row-column pair of the raster is below the pixel count. -/
theorem shown_lt {W H p : Nat} (hp : p < W * H) : (H - 1 - p / W) * W + p % W < W * H := by
  have hW0 : 0 < W := by
    rcases Nat.eq_zero_or_pos W with h | h
    · rw [h, Nat.zero_mul] at hp
      omega
    · exact h
  have hH0 : 0 < H := by
    rcases Nat.eq_zero_or_pos H with h | h
    · rw [h, Nat.mul_zero] at hp
      omega
    · exact h
  have := Nat.mod_lt p hW0
  have : (H - 1 - p / W) * W + W ≤ H * W := by
    rw [← Nat.succ_mul]
    exact Nat.mul_le_mul_right _ (by generalize p / W = d; omega)
  rw [Nat.mul_comm W H]
  omega

/-- The work of EMITHDR: OUT and OUT_LEN alone change; the 54 header bytes stand at the old OUT_LEN, every other cell
reads as before, and OUT stays canonical. -/
theorem emitHeader_spec (c : Params) (s : State) :
    ∃ m : Memory 8, emitHeader c s = { s with out := m, outLen := s.outLen + 54 } ∧
      (∀ a, a < 54 → Memory.read m (s.outLen + a) = (headerList c s)[a]?) ∧
      (∀ a, a < s.outLen ∨ s.outLen + 54 ≤ a → Memory.read m a = Memory.read s.out a) ∧
      (Memory.wf s.out = true → Memory.wf m = true) := by
  refine ⟨(emitList (headerList c s) s).out, ?_, ?_, ?_, emitList_wf _ _⟩
  · rw [emitHeader_eq]
    conv_lhs => rw [emitList_frame, headerList_length]
  · intro a ha
    rw [emitList_read, headerList_length, if_pos (by omega), Nat.add_sub_cancel_left]
  · intro a ha
    rw [emitList_read, headerList_length, if_neg (by omega)]

/-- The header's bytes, as R96 lists them. -/
theorem headerList_hw (s : State) :
    headerList Params.hw s = Tex.headerOf (54 + 3 * s.npix) s.width.toNat s.height.toNat := by
  have e : ∀ v i, byteOf v i = Tex.byteOfNumber v i := by
    intro v i
    apply BitVec.eq_of_toNat_eq
    simp [byteOf, Tex.byteOfNumber]
  simp only [headerList, Tex.headerOf, Tex.le4, Tex.le2, List.map, e, Params.hw]

/-- What a completed LDPIX loop leaves: PIX alone has changed, and it is canonical if it was. -/
theorem copyPix_keeps (n k : Nat) (s t : State) (h : forUp copyPixByte n k s = .ok t) :
    t = { s with pix := t.pix } ∧ (Memory.wf s.pix = true → Memory.wf t.pix = true) := by
  refine forUp_keeps (fun u => u = { s with pix := u.pix } ∧ (Memory.wf s.pix = true → Memory.wf u.pix = true)) ?_
    n k s t h ⟨rfl, id⟩
  rintro j y z hz ⟨hy, hw⟩
  simp only [copyPixByte] at hz
  split at hz <;> simp at hz
  subst hz
  exact ⟨by rw [hy], fun h => Memory.wf_write _ _ _ (hw h)⟩

/-- A completed LDPIX loop has found a value in every cell it read. -/
theorem copyPix_reads (n k : Nat) (s t : State) (h : forUp copyPixByte n k s = .ok t) :
    ∀ j, k ≤ j → j < k + n → (Memory.read s.src (24 + j)).isSome := by
  induction n generalizing k s with
  | zero => intro j h1 h2; omega
  | succ n ih =>
    intro j h1 h2
    simp only [forUp] at h
    split at h
    · simp at h
    · rename_i y hy
      have hb : ∃ b, Memory.read s.src (24 + k) = some b ∧ y = { s with pix := Memory.write s.pix k b } := by
        simp only [copyPixByte, Config.hdrSize] at hy
        split at hy
        · simp at hy
        · rename_i b hb
          simp only [Except.ok.injEq] at hy
          exact ⟨b, (readCell_ok_iff _ _ _ _).mp hb, hy.symm⟩
      obtain ⟨b, hb, rfl⟩ := hb
      by_cases hj : j = k
      · rw [hj, hb]
        rfl
      · exact ih (k + 1) _ h j (by omega) (by omega)

/-- A palette word that is read has both its bytes. -/
theorem palWord_reads (src : Memory 8) (l i : Nat) (p : BitVec 16) (h : palWord src l i = .ok p) :
    (Memory.read src (l - 32 + 2 * i)).isSome ∧ (Memory.read src (l - 32 + 2 * i + 1)).isSome := by
  simp only [palWord, Config.palBytes, memRead, readCell] at h
  split at h
  · simp at h
  cases h0 : Memory.read src (l - 32 + 2 * i) with
  | none => simp [h0] at h
  | some b0 =>
    cases h1 : Memory.read src (l - 32 + 2 * i + 1) with
    | none => simp [h0, h1] at h
    | some b1 => exact ⟨rfl, rfl⟩

/-- A completed LDPAL loop has found a value in every cell it read. -/
theorem loadPal_reads (n k : Nat) (s t : State) (h : forUp loadPalEntry n k s = .ok t) :
    ∀ j, k ≤ j → j < k + n → (Memory.read s.src (s.srcLen.toNat - 32 + 2 * j)).isSome ∧
      (Memory.read s.src (s.srcLen.toNat - 32 + 2 * j + 1)).isSome := by
  induction n generalizing k s with
  | zero => intro j h1 h2; omega
  | succ n ih =>
    intro j h1 h2
    simp only [forUp] at h
    split at h
    · simp at h
    · rename_i y hy
      have hb : ∃ p, palWord s.src s.srcLen.toNat k = .ok p ∧ y = { s with pal := s.pal.setIfInBounds k (cvt555 p) } := by
        simp only [loadPalEntry] at hy
        split at hy
        · simp at hy
        · rename_i p hp
          simp only [Except.ok.injEq] at hy
          exact ⟨p, hp, hy.symm⟩
      obtain ⟨p, hp, rfl⟩ := hb
      by_cases hj : j = k
      · rw [hj]
        exact palWord_reads _ _ _ _ hp
      · exact ih (k + 1) _ h j (by omega) (by omega)

/-- What a completed LDPAL loop leaves: PAL alone has changed. -/
theorem loadPal_keeps (n k : Nat) (s t : State) (h : forUp loadPalEntry n k s = .ok t) : t = { s with pal := t.pal } := by
  refine forUp_keeps (fun u => u = { s with pal := u.pal }) ?_ n k s t h rfl
  rintro j y z hz hy
  simp only [loadPalEntry] at hz
  split at hz <;> simp at hz
  subst hz
  rw [hy]

/-- What a completed UNPACK loop leaves: IDX alone has changed, and it is canonical if it was. -/
theorem unpackByte_keeps (n k : Nat) (s t : State) (h : forUp unpackByte n k s = .ok t) :
    t = { s with idx := t.idx } ∧ (Memory.wf s.idx = true → Memory.wf t.idx = true) := by
  refine forUp_keeps (fun u => u = { s with idx := u.idx } ∧ (Memory.wf s.idx = true → Memory.wf u.idx = true)) ?_
    n k s t h ⟨rfl, id⟩
  rintro j y z hz ⟨hy, hw⟩
  simp only [unpackByte] at hz
  split at hz <;> simp at hz
  subst hz
  exact ⟨by rw [hy], fun h => Memory.wf_write _ _ _ (Memory.wf_write _ _ _ (hw h))⟩

/-- What a completed EMITPIX leaves: OUT and OUT_LEN alone have changed, and OUT is canonical if it was. -/
theorem emitRows_keeps (c : Params) (n : Nat) (s t : State) (h : forDown (emitRow c) n s = .ok t) :
    t = { s with out := t.out, outLen := t.outLen } ∧ (Memory.wf s.out = true → Memory.wf t.out = true) := by
  have pixel : ∀ y x u v, emitPixel c y x u = .ok v →
      (u = { s with out := u.out, outLen := u.outLen } ∧ (Memory.wf s.out = true → Memory.wf u.out = true)) →
      v = { s with out := v.out, outLen := v.outLen } ∧ (Memory.wf s.out = true → Memory.wf v.out = true) := by
    rintro y x u v hv ⟨hu, hw⟩
    simp only [emitPixel] at hv
    split at hv <;> simp at hv
    subst hv
    refine ⟨?_, fun h => ?_⟩
    · rw [emitRGB_eq, emitList_frame, hu]
    · rw [emitRGB_eq]
      exact emitList_wf _ _ (hw h)
  refine forDown_keeps
    (fun u => u = { s with out := u.out, outLen := u.outLen } ∧ (Memory.wf s.out = true → Memory.wf u.out = true)) ?_
    n s t h ⟨rfl, id⟩
  intro y u v hv hu
  exact forUp_keeps
    (fun u => u = { s with out := u.out, outLen := u.outLen } ∧ (Memory.wf s.out = true → Memory.wf u.out = true))
    (fun k => pixel y k) _ _ u v hv hu

/-- RDHDR's work changes WIDTH, HEIGHT and HDR_VALID alone. -/
theorem readHeader_keeps (s t : State) (h : readHeader s = .ok t) :
    t = { s with width := t.width, height := t.height, hdrValid := true } := by
  simp only [readHeader] at h
  split at h
  · simp at h
  · split at h <;> simp at h
    subst h
    rfl

/-! What each sequencer operation can do when it answers a next state. -/

theorem execChklen_next (s t : State) (h : execChklen s = .next t) :
    (s.srcLen.toNat < 32 ∧ t = raise .truncatedPalette s) ∨ (32 ≤ s.srcLen.toNat ∧ t = goto .rdhdr s) := by
  simp only [execChklen, Config.palBytes] at h
  split at h <;> rename_i hc <;> simp only [Host.Outcome.next.injEq] at h
  · exact .inl ⟨hc, h.symm⟩
  · exact .inr ⟨Nat.not_lt.mp hc, h.symm⟩

theorem execRdhdr_next (s t : State) (h : execRdhdr s = .next t) :
    t = goto .chkdim { s with width := t.width, height := t.height, hdrValid := true } := by
  obtain ⟨u, hu, rfl⟩ := (finish_next_iff _ _ _).mp h
  rw [readHeader_keeps s u hu]
  rfl

theorem execChkdim_next (s t : State) (h : execChkdim s = .next t) :
    (¬ LegalDimensions s ∧ t = raise .invalidDimensions s) ∨ (LegalDimensions s ∧ t = goto .size s) := by
  simp only [execChkdim, Config.maxDim] at h
  unfold LegalDimensions LegalDimension
  split at h <;> rename_i hc <;> simp only [Host.Outcome.next.injEq] at h
  · exact .inl ⟨by omega, h.symm⟩
  · exact .inr ⟨by omega, h.symm⟩

theorem execSize_next (s t : State) (h : execSize s = .next t) :
    t = goto .ldpix { s with npix := pixelCount s.width s.height, dataSize := pixelCount s.width s.height / 2 } := by
  simp only [execSize, Host.Outcome.next.injEq] at h
  exact h.symm

/-- The pixel count of legal dimensions is their product, between 1 and 2^24 (R9). -/
theorem pixelCount_legal (w h : Word) (hw : LegalDimension w) (hh : LegalDimension h) :
    (pixelCount w h : Int) = s32 w * s32 h ∧ 1 ≤ pixelCount w h ∧ pixelCount w h ≤ 16777216 := by
  have hb : s32 w * s32 h ≤ 4096 * 4096 := Int.mul_le_mul hw.2 hh.2 (by have := hh.1; omega) (by omega)
  have ha : 1 * 1 ≤ s32 w * s32 h := Int.mul_le_mul hw.1 hh.1 (by omega) (by have := hw.1; omega)
  rw [pixelCount, if_pos (by omega)]
  generalize s32 w * s32 h = n at *
  omega

theorem execLdpix_next (s t : State) (h : execLdpix s = .next t) :
    (s.srcLen.toNat < 24 + s.dataSize ∧ t = raise .truncatedData s) ∨
    (24 + s.dataSize ≤ s.srcLen.toNat ∧ ∃ u, forUp copyPixByte s.dataSize 0 s = .ok u ∧ t = goto .ldpal u) := by
  simp only [execLdpix, Config.hdrSize] at h
  split at h <;> rename_i hc
  · simp only [Host.Outcome.next.injEq] at h
    exact .inl ⟨hc, h.symm⟩
  · obtain ⟨u, hu, ht⟩ := (finish_next_iff _ _ _).mp h
    exact .inr ⟨Nat.not_lt.mp hc, u, hu, ht⟩

theorem execLdpal_next (s t : State) (h : execLdpal s = .next t) :
    (s.srcLen.toNat < 56 + s.dataSize ∧ t = raise .truncatedPalette s) ∨
    (56 + s.dataSize ≤ s.srcLen.toNat ∧ ∃ u, forUp loadPalEntry 16 0 s = .ok u ∧ t = goto .unpack u) := by
  simp only [execLdpal, ldpalWith, regionsOverlap, Config.hdrSize, Config.palBytes, Config.palEntries] at h
  split at h <;> rename_i hc
  · simp only [Host.Outcome.next.injEq] at h
    exact .inl ⟨by omega, h.symm⟩
  · obtain ⟨u, hu, ht⟩ := (finish_next_iff _ _ _).mp h
    have : ¬ s.srcLen.toNat < 24 + s.dataSize + 32 := fun hl => hc ⟨rfl, hl⟩
    exact .inr ⟨by omega, u, hu, ht⟩

theorem execUnpack_next (s t : State) (h : execUnpack s = .next t) :
    ∃ u, forUp unpackByte s.dataSize 0 s = .ok u ∧ t = goto .emithdr (setIdxLen u) := by
  obtain ⟨u, hu, rfl⟩ := (finish_next_iff _ _ _).mp h
  simp only [unpackAll] at hu
  split at hu
  · simp at hu
  · rename_i v hv
    simp only [Except.ok.injEq] at hu
    exact ⟨v, hv, by rw [hu]⟩

theorem execEmithdr_next (s t : State) (h : execEmithdr s = .next t) : t = goto .emitpix (emitHeader Params.hw s) := by
  simp only [execEmithdr, emithdrWith, Host.Outcome.next.injEq] at h
  exact h.symm

theorem execEmitpix_next (s t : State) (h : execEmitpix s = .next t) :
    ∃ u, forDown (emitRow Params.hw) (loopCount s.height) s = .ok u ∧ t = goto .commit u := by
  exact (finish_next_iff _ _ _).mp h

theorem execCommit_next (s t : State) (h : execCommit s = .next t) :
    (s.sinkOk = true ∧ t = goto .done s) ∨ (s.sinkOk = false ∧ t = raise .writeError s) := by
  simp only [execCommit] at h
  split at h <;> rename_i hc <;> simp only [Host.Outcome.next.injEq] at h
  · exact .inl ⟨hc, h.symm⟩
  · exact .inr ⟨by simpa using hc, h.symm⟩

end Sys2Proof.Machine
end

