-- ==== Sys2Proof/Laws/PerInstr.lean ====
section
/-! SUPPORT. The family RoundTrip, one lemma per operation: a well-formed operation's word decodes to it. -/

namespace Sys2Proof.Laws.RoundTrip

/-- Decoding the word of a well-formed operation gives the operation back. -/
def Statement (i : Instr) : Prop := i.wf = true → decode (encode i) = .ok i

theorem idle : Statement .idle := fun _ => rfl

theorem chklen : Statement .chklen := fun _ => rfl

theorem rdhdr : Statement .rdhdr := fun _ => rfl

theorem chkdim : Statement .chkdim := fun _ => rfl

theorem size : Statement .size := fun _ => rfl

theorem ldpix : Statement .ldpix := fun _ => rfl

theorem ldpal : Statement .ldpal := fun _ => rfl

theorem unpack : Statement .unpack := fun _ => rfl

theorem emithdr : Statement .emithdr := fun _ => rfl

theorem emitpix : Statement .emitpix := fun _ => rfl

theorem commit : Statement .commit := fun _ => rfl

theorem done : Statement .done := fun _ => rfl

theorem fail : Statement .fail := fun _ => rfl

theorem scale5 (v : BitVec 5) : Statement (.scale5 v) := fun _ => rfl

theorem cvt555 (p : BitVec 16) : Statement (.cvt555 p) := fun _ => rfl

theorem unpk (b : Byte) : Statement (.unpk b) := fun _ => rfl

theorem idxat (n : BitVec 24) : Statement (.idxat n) := fun _ => rfl

theorem resolve (i : Index) : Statement (.resolve i) := fun _ => rfl

theorem start (ctrl : Word) : Statement (.start ctrl) := fun h => by
  simp only [Instr.wf] at h
  simp [decode, encode, h]

end Sys2Proof.Laws.RoundTrip
end

