-- ==== Sys2Proof/Laws/Step.lean ====
section
/-! SUPPORT. What a step does, by what stands first in the inputs. -/

namespace Sys2Proof.Machine

/-- The operation PHASE holds, as an operation of the table (R24, R181). -/
def Phase.operation : Phase → Instr
  | .idle => .idle
  | .chklen => .chklen
  | .rdhdr => .rdhdr
  | .chkdim => .chkdim
  | .size => .size
  | .ldpix => .ldpix
  | .ldpal => .ldpal
  | .unpack => .unpack
  | .emithdr => .emithdr
  | .emitpix => .emitpix
  | .commit => .commit
  | .done => .done
  | .fail => .fail

/-- PHASE always decodes. -/
theorem decode_phase (p : Phase) : decode (.opcode p.code) = .ok (Phase.operation p) := by cases p <;> rfl

/-- The core's turn runs the operation PHASE holds. -/
theorem step_core_empty (s : State) (h : s.inputs = []) : step s = exec (Phase.operation s.phase) s := by
  simp only [step, nextTurn, h, runWord, decode_phase]

theorem step_core (s : State) (rest : List Input) (h : s.inputs = .core :: rest) :
    step s = exec (Phase.operation s.phase) (withInputs s rest) := by
  simp only [step, nextTurn, h, runWord, decode_phase]

theorem step_sink (s : State) (ok : Bool) (rest : List Input) (h : s.inputs = .sink ok :: rest) :
    step s = .next (sinkAnswers ok (withInputs s rest)) := by simp only [step, nextTurn, h]

theorem step_eval (s : State) (w : FnWord) (rest : List Input) (h : s.inputs = .eval w :: rest) :
    step s = runWord (.fn w) (withInputs s rest) := by simp only [step, nextTurn, h]

theorem step_writeSrc (s : State) (a : Nat) (b : Byte) (rest : List Input) (h : s.inputs = .host (.writeSrc a b) :: rest) :
    step s = writeSrc Params.hw a b (withInputs s rest) := by simp only [step, nextTurn, h, hostMove]

theorem step_writeCtrl (s : State) (v : Word) (rest : List Input) (h : s.inputs = .host (.writeCsr 0 v) :: rest) :
    step s = runWord (.ctrlword v) (withInputs s rest) := by simp only [step, nextTurn, h, if_true]

theorem step_writeCsr (s : State) (n : Nat) (v : Word) (rest : List Input) (hn : n ≠ 0)
    (h : s.inputs = .host (.writeCsr n v) :: rest) : step s = .next (writeCsr n v (withInputs s rest)) := by
  simp only [step, nextTurn, h, if_neg hn, hostMove]

theorem step_readOut (s : State) (a : Nat) (rest : List Input) (h : s.inputs = .host (.readOut a) :: rest) :
    step s = readOut a (withInputs s rest) := by simp only [step, nextTurn, h, hostMove]

theorem step_assertReset (s : State) (rest : List Input) (h : s.inputs = .host .assertReset :: rest) :
    step s = .next (assertReset (withInputs s rest)) := by simp only [step, nextTurn, h, hostMove]

/-- A CSR0 write runs START when bit 0 is 1 and does nothing when it is 0 (R29). -/
theorem runWord_ctrlword (v : Word) (s : State) :
    runWord (.ctrlword v) s = if v.getLsbD 0 then exec (.start v) s else .next s := by
  by_cases h : v.getLsbD 0 = true
  · simp only [runWord, decode, if_pos h]
  · simp only [runWord, decode, if_neg h]

/-- A word put to a function changes fnOut alone. -/
theorem runWord_fn (w : FnWord) (s t : State) (h : runWord (.fn w) s = .next t) : t = { s with fnOut := t.fnOut } := by
  cases w with
  | flatpix n =>
    simp only [runWord, decode, exec, execIdxat] at h
    split at h <;> simp at h
    subst h
    rfl
  | _ =>
    simp only [runWord, decode, exec, execScale5, execCvt555, execUnpk, execResolve, Host.Outcome.next.injEq] at h
    subst h
    rfl

/-- START, when it answers (it always does): a run begins, or nothing changes. -/
theorem execStart_cases (v : Word) (s t : State) (h : exec (.start v) s = .next t) :
    (t = startRun s ∧ Halted s ∧ v.getLsbD 0 = true) ∨ t = s := by
  simp only [exec, execStart] at h
  split at h
  · rename_i hc
    simp only [Host.Outcome.next.injEq] at h
    simp only [Bool.and_eq_true, Bool.not_eq_true', busy_false_iff] at hc
    exact .inl ⟨h.symm, hc.2, hc.1⟩
  · simp only [Host.Outcome.next.injEq] at h
    exact .inr h.symm

/-- A host read changes the reply alone. -/
theorem readOut_next (a : Nat) (s t : State) (h : readOut a s = .next t) : t = { s with hostReply := t.hostReply } := by
  simp only [readOut] at h
  split at h
  · split at h <;> simp at h
    subst h
    rfl
  · simp at h

theorem readCsrMove_next (n : Nat) (s t : State) (h : hostMove (.readCsr n) s = .next t) :
    t = { s with hostReply := t.hostReply } := by
  simp only [hostMove] at h
  split at h <;> simp at h
  subst h
  rfl

/-- A host write of SRC, when it answers: stored in a halt state, dropped in a run. -/
theorem writeSrc_next (c : Params) (a : Nat) (b : Byte) (s t : State) (h : writeSrc c a b s = .next t) :
    (Halted s ∧ t = { s with src := Memory.write s.src a b }) ∨ t = s := by
  simp only [writeSrc] at h
  split at h
  · split at h
    · simp only [Host.Outcome.next.injEq] at h
      exact .inr h.symm
    · rename_i hb
      simp only [Host.Outcome.next.injEq] at h
      rw [Bool.not_eq_true, busy_false_iff] at hb
      exact .inl ⟨hb, h.symm⟩
  · simp at h

theorem writeCsr_cases (n : Nat) (v : Word) (s : State) :
    (Halted s ∧ n = 2 ∧ writeCsr n v s = { s with srcLen := v }) ∨ writeCsr n v s = s := by
  simp only [writeCsr]
  split
  · rename_i h
    simp only [Bool.and_eq_true, decide_eq_true_eq, Bool.not_eq_true', busy_false_iff] at h
    exact .inl ⟨h.2, h.1, rfl⟩
  · exact .inr rfl

/-- Everything one step can do when it answers a next state. -/
theorem step_cases (s t : State) (h : step s = .next t) :
    (∃ u, (u = s ∧ s.inputs = [] ∨ ∃ rest, s.inputs = .core :: rest ∧ u = withInputs s rest) ∧
      exec (Phase.operation u.phase) u = .next t) ∨
    (∃ w rest, s.inputs = .eval w :: rest ∧ t = { withInputs s rest with fnOut := t.fnOut }) ∨
    (∃ ok rest, s.inputs = .sink ok :: rest ∧ t = sinkAnswers ok (withInputs s rest)) ∨
    (∃ v rest, s.inputs = .host (.writeCsr 0 v) :: rest ∧
      ((v.getLsbD 0 = true ∧ Halted s ∧ t = startRun (withInputs s rest)) ∨ t = withInputs s rest)) ∨
    (∃ n v rest, s.inputs = .host (.writeCsr n v) :: rest ∧ n ≠ 0 ∧
      ((n = 2 ∧ Halted s ∧ t = { withInputs s rest with srcLen := v }) ∨ t = withInputs s rest)) ∨
    (∃ a b rest, s.inputs = .host (.writeSrc a b) :: rest ∧
      ((Halted s ∧ t = { withInputs s rest with src := Memory.write s.src a b }) ∨ t = withInputs s rest)) ∨
    (∃ n rest, s.inputs = .host (.readCsr n) :: rest ∧ t = { withInputs s rest with hostReply := t.hostReply }) ∨
    (∃ a rest, s.inputs = .host (.readOut a) :: rest ∧ t = { withInputs s rest with hostReply := t.hostReply }) ∨
    (∃ rest, s.inputs = .host .assertReset :: rest ∧ t = assertReset (withInputs s rest)) := by
  rcases hi : s.inputs with _ | ⟨i, rest⟩
  · rw [step_core_empty s hi] at h
    exact .inl ⟨s, .inl ⟨rfl, rfl⟩, h⟩
  · rcases i with m | _ | ok | w
    · rcases m with ⟨a, b⟩ | ⟨n, v⟩ | n | a | _
      · rw [step_writeSrc s a b rest hi] at h
        refine .inr (.inr (.inr (.inr (.inr (.inl ⟨a, b, rest, rfl, ?_⟩)))))
        exact writeSrc_next _ a b _ t h
      · by_cases hn : n = 0
        · subst hn
          rw [step_writeCtrl s v rest hi, runWord_ctrlword] at h
          refine .inr (.inr (.inr (.inl ⟨v, rest, rfl, ?_⟩)))
          split at h
          · rcases execStart_cases v _ t h with ⟨ht, hh, hv⟩ | ht
            · exact .inl ⟨hv, hh, ht⟩
            · exact .inr ht
          · simp only [Host.Outcome.next.injEq] at h
            exact .inr h.symm
        · rw [step_writeCsr s n v rest hn hi, Host.Outcome.next.injEq] at h
          refine .inr (.inr (.inr (.inr (.inl ⟨n, v, rest, rfl, hn, ?_⟩))))
          rcases writeCsr_cases n v (withInputs s rest) with ⟨hh, h2, he⟩ | he
          · exact .inl ⟨h2, hh, by rw [← h, he]⟩
          · exact .inr (by rw [← h, he])
      · refine .inr (.inr (.inr (.inr (.inr (.inr (.inl ⟨n, rest, rfl, ?_⟩))))))
        refine readCsrMove_next n _ t ?_
        rw [← h]
        simp only [step, nextTurn, hi]
      · rw [step_readOut s a rest hi] at h
        exact .inr (.inr (.inr (.inr (.inr (.inr (.inr (.inl ⟨a, rest, rfl, readOut_next a _ t h⟩)))))))
      · rw [step_assertReset s rest hi, Host.Outcome.next.injEq] at h
        exact .inr (.inr (.inr (.inr (.inr (.inr (.inr (.inr ⟨rest, rfl, h.symm⟩)))))))
    · rw [step_core s rest hi] at h
      exact .inl ⟨withInputs s rest, .inr ⟨rest, rfl, rfl⟩, h⟩
    · rw [step_sink s ok rest hi, Host.Outcome.next.injEq] at h
      exact .inr (.inr (.inl ⟨ok, rest, rfl, h.symm⟩))
    · rw [step_eval s w rest hi] at h
      exact .inr (.inl ⟨w, rest, rfl, runWord_fn w _ t h⟩)

/-- The first step of a run, on any machine. -/
theorem core_run_next (M : Host.Core) (k : Nat) (s u : M.State) (h : M.step s = .next u) :
    M.run (k + 1) s = M.run k u := by simp only [Host.Core.run, h]

/-- A run of j + k steps is one of k steps from where j steps lead, on any machine. -/
theorem core_run_add (M : Host.Core) (j k : Nat) (s u : M.State) (h : M.run j s = .next u) :
    M.run (j + k) s = M.run k u := by
  induction j generalizing s with
  | zero =>
    simp only [Host.Core.run, Host.Outcome.next.injEq] at h
    rw [Nat.zero_add, h]
  | succ j ih =>
    rcases hs : M.step s with v | r | r
    · rw [core_run_next M j s v hs] at h
      rw [Nat.add_right_comm, core_run_next M _ s v hs]
      exact ih v h
    · simp only [Host.Core.run, hs] at h
      cases h
    · simp only [Host.Core.run, hs] at h
      cases h

/-- The first step of a run of this machine. -/
theorem run_succ {k : Nat} {s u : State} (h : step s = .next u) :
    Host.Core.run Sys2Proof.core (k + 1) s = Host.Core.run Sys2Proof.core k u := core_run_next Sys2Proof.core k s u h

/-- A run of j + k steps of this machine. -/
theorem run_add {j k : Nat} {s u : State} (h : Host.Core.run Sys2Proof.core j s = .next u) :
    Host.Core.run Sys2Proof.core (j + k) s = Host.Core.run Sys2Proof.core k u := core_run_add Sys2Proof.core j k s u h

end Sys2Proof.Machine
end

