-- ==== Sys2Proof/Laws/Run.lean ====
section
/-! SUPPORT. What every core step leaves alone, the phase invariant under the shared operations, and the formulas of
Safety.lean on loaded bytes. -/

namespace Sys2Proof.Machine

/-- The core's operations write neither SRC nor SRC_LEN (R35, R31), use up no input and leave the sink's answer alone. -/
theorem exec_keeps (p : Phase) (s t : State) (h : exec (Phase.operation p) s = .next t) :
    t.src = s.src ∧ t.srcLen = s.srcLen ∧ t.inputs = s.inputs ∧ t.sinkOk = s.sinkOk := by
  cases p
  case idle | done | fail =>
    cases h
    exact ⟨rfl, rfl, rfl, rfl⟩
  case chklen => rcases execChklen_next s t h with ⟨-, rfl⟩ | ⟨-, rfl⟩ <;> exact ⟨rfl, rfl, rfl, rfl⟩
  case rdhdr =>
    rw [execRdhdr_next s t h]
    exact ⟨rfl, rfl, rfl, rfl⟩
  case chkdim => rcases execChkdim_next s t h with ⟨-, rfl⟩ | ⟨-, rfl⟩ <;> exact ⟨rfl, rfl, rfl, rfl⟩
  case size =>
    rw [execSize_next s t h]
    exact ⟨rfl, rfl, rfl, rfl⟩
  case ldpix =>
    rcases execLdpix_next s t h with ⟨-, rfl⟩ | ⟨-, u, hu, rfl⟩
    · exact ⟨rfl, rfl, rfl, rfl⟩
    · rw [(copyPix_keeps _ _ _ _ hu).1]
      exact ⟨rfl, rfl, rfl, rfl⟩
  case ldpal =>
    rcases execLdpal_next s t h with ⟨-, rfl⟩ | ⟨-, u, hu, rfl⟩
    · exact ⟨rfl, rfl, rfl, rfl⟩
    · rw [loadPal_keeps _ _ _ _ hu]
      exact ⟨rfl, rfl, rfl, rfl⟩
  case unpack =>
    obtain ⟨u, hu, rfl⟩ := execUnpack_next s t h
    rw [(unpackByte_keeps _ _ _ _ hu).1]
    exact ⟨rfl, rfl, rfl, rfl⟩
  case emithdr =>
    obtain ⟨m, e, -⟩ := emitHeader_spec Params.hw s
    rw [execEmithdr_next s t h, e]
    exact ⟨rfl, rfl, rfl, rfl⟩
  case emitpix =>
    obtain ⟨u, hu, rfl⟩ := execEmitpix_next s t h
    rw [(emitRows_keeps _ _ _ _ hu).1]
    exact ⟨rfl, rfl, rfl, rfl⟩
  case commit => rcases execCommit_next s t h with ⟨-, rfl⟩ | ⟨-, rfl⟩ <;> exact ⟨rfl, rfl, rfl, rfl⟩

/-- A halt state's operation changes nothing. -/
theorem halted_exec (s : State) (h : Halted s) : exec (Phase.operation s.phase) s = .next s := by
  rcases h with h | h | h <;> rw [h] <;> rfl

/-- The halt states by their codes (R24, R25). -/
theorem halted_num (s : State) : Halted s ↔ phaseNum s = 0 ∨ 11 ≤ phaseNum s := by
  unfold Halted phaseNum
  cases s.phase <;> decide

/-- An operation of a run goes to its successor or to FAIL (R181). -/
theorem busy_advances (s t : State) (hb : ¬ Halted s) (h : exec (Phase.operation s.phase) s = .next t) :
    phaseNum t = phaseNum s + 1 ∨ t.phase = .fail := by
  unfold phaseNum
  cases hp : s.phase <;> rw [hp] at h
  case idle => exact absurd (.inl hp) hb
  case done => exact absurd (.inr (.inl hp)) hb
  case fail => exact absurd (.inr (.inr hp)) hb
  case chklen => rcases execChklen_next s t h with ⟨-, rfl⟩ | ⟨-, rfl⟩ <;> simp [raise, goto, Phase.code]
  case rdhdr => rw [execRdhdr_next s t h]; exact .inl rfl
  case chkdim => rcases execChkdim_next s t h with ⟨-, rfl⟩ | ⟨-, rfl⟩ <;> simp [raise, goto, Phase.code]
  case size => rw [execSize_next s t h]; exact .inl rfl
  case ldpix => rcases execLdpix_next s t h with ⟨-, rfl⟩ | ⟨-, u, hu, rfl⟩ <;> simp [raise, goto, Phase.code]
  case ldpal => rcases execLdpal_next s t h with ⟨-, rfl⟩ | ⟨-, u, hu, rfl⟩ <;> simp [raise, goto, Phase.code]
  case unpack => obtain ⟨u, hu, rfl⟩ := execUnpack_next s t h; exact .inl rfl
  case emithdr => rw [execEmithdr_next s t h]; exact .inl rfl
  case emitpix => obtain ⟨u, hu, rfl⟩ := execEmitpix_next s t h; exact .inl rfl
  case commit => rcases execCommit_next s t h with ⟨-, rfl⟩ | ⟨-, rfl⟩ <;> simp [raise, goto, Phase.code]

/-- `raise` keeps the phase invariant. -/
theorem raise_runInv (e : ErrCode) (s : State) (he : e ≠ .noError) (hi : RunInv s)
    (hv : e ≠ .truncatedPalette → s.hdrValid = true) : RunInv (raise e s) := by
  have pn : phaseNum (raise e s) = 12 := rfl
  constructor
  case error => exact ⟨fun h => absurd h he, fun h => absurd rfl h⟩
  case headerFail => intro _ h; exact hv h
  case outLenZero => intro _; rfl
  case outLenHeader => intro h; cases h
  case outLenAll => rintro (h | h) <;> cases h
  case outWritten => intro a h; exact absurd h (Nat.not_lt_zero a)
  case fits => exact ⟨hi.fits.npix, hi.fits.dataSize, hi.fits.idxLen, by show 0 < 2 ^ 32; decide⟩
  case headerNotRead | idxLenZero => intro h; rw [pn] at h; omega
  all_goals (intro h1 h2; rw [pn] at h2; omega)

/-- A state with the same registers and run-owned memories meets the phase invariant; SRC and SRC_LEN may differ in a halt
state. -/
theorem RunInv.of_same {s t : State} (hi : RunInv s) (h1 : t.phase = s.phase) (h2 : t.errCode = s.errCode)
    (h3 : t.hdrValid = s.hdrValid) (h4 : t.width = s.width) (h5 : t.height = s.height) (h6 : t.npix = s.npix)
    (h7 : t.dataSize = s.dataSize) (h8 : t.idxLen = s.idxLen) (h9 : t.outLen = s.outLen) (h10 : t.pal = s.pal)
    (h11 : t.pix = s.pix) (h12 : t.idx = s.idx) (h13 : t.out = s.out)
    (hs : (t.src = s.src ∧ t.srcLen = s.srcLen) ∨ Halted s) : RunInv t := by
  have pn : phaseNum t = phaseNum s := by simp only [phaseNum, h1]
  have hh : Halted s → phaseNum s = 0 ∨ phaseNum s = 11 ∨ phaseNum s = 12 := by
    rintro (h | h | h) <;> simp only [phaseNum, h] <;> decide
  constructor <;> try simp only [pn, h1, h2, h3, h4, h5, h6, h7, h8, h9, h10, h11, h12, h13, LegalDimensions]
  case fits => exact ⟨h6 ▸ hi.fits.npix, h7 ▸ hi.fits.dataSize, h8 ▸ hi.fits.idxLen, h9 ▸ hi.fits.outLen⟩
  case error => exact hi.error
  case headerNotRead => exact hi.headerNotRead
  case headerRead => exact hi.headerRead
  case headerFail => exact hi.headerFail
  case dims => exact hi.dims
  case sizes => exact hi.sizes
  case idxLenZero => exact hi.idxLenZero
  case idxLenSet => exact hi.idxLenSet
  case outLenZero => exact hi.outLenZero
  case outLenHeader => exact hi.outLenHeader
  case outLenAll => exact hi.outLenAll
  case outWritten => exact hi.outWritten
  all_goals
    intro g1 g2
    rcases hs with ⟨e1, e2⟩ | hs
    · simp only [e1, e2]
      first
        | exact hi.lenHeader g1 g2
        | exact hi.lenPixels g1 g2
        | exact hi.lenPalette g1 g2
        | exact hi.pixels g1 g2
        | exact hi.palette g1 g2
        | exact hi.indices g1 g2
    · have := hh hs
      omega

/-- A started run meets the phase invariant, whatever went before. -/
theorem startRun_runInv (s : State) : RunInv (startRun s) := by
  have pn : phaseNum (startRun s) = 1 := rfl
  constructor <;> (try rw [pn])
  case error => exact ⟨fun _ h => (by cases h), fun _ => rfl⟩
  case headerNotRead => intro _; rfl
  case headerFail => intro h; cases h
  case idxLenZero => intro _; rfl
  case outLenZero => intro _; rfl
  case outLenHeader => intro h; cases h
  case outLenAll => rintro (h | h) <;> cases h
  case outWritten => intro a h; exact absurd h (Nat.not_lt_zero a)
  case fits => exact ⟨BitVec.isLt _, BitVec.isLt _, by show 0 < 2 ^ 25; decide, by show 0 < 2 ^ 32; decide⟩
  all_goals (intro h1 h2; omega)

/-- An input that may come between the core's turns of a run leaves everything but the inputs, the sink's answer and the
model's own reply fields as it is (R6, R186). -/
theorem step_between {s : State} {m : Nat} {i : Input} {rest : List Input} (hinv : RunInv s) (hb : ¬ Halted s)
    (hm : phaseNum s = m + 1) (hi : s.inputs = i :: rest) (hc : mayComeBetween m i = true) :
    ∃ t, step s = .next t ∧ t.sinkOk = sinkAfter s.sinkOk [i] ∧
      t = { s with inputs := rest, sinkOk := t.sinkOk, hostReply := t.hostReply, fnOut := t.fnOut } := by
  have nb := (busy_iff s).mpr hb
  have hnum : phaseNum s ≤ 10 := by
    have := mt (halted_num s).mpr hb
    omega
  have hdr : 2 ≤ m → s.hdrValid = true := fun h => hinv.headerRead (by omega) (by omega)
  rcases i with mv | _ | ok | w
  · rcases mv with ⟨a, b⟩ | ⟨n, v⟩ | n | a | _
    · simp only [mayComeBetween, decide_eq_true_eq] at hc
      exact ⟨withInputs s rest, by rw [step_writeSrc s a b rest hi, writeSrc, if_pos hc, busy_withInputs, if_pos nb], rfl, rfl⟩
    · refine ⟨withInputs s rest, ?_, rfl, rfl⟩
      by_cases hn : n = 0
      · subst hn
        rw [step_writeCtrl s v rest hi, runWord_ctrlword]
        split
        · simp [exec, execStart, nb]
        · rfl
      · simp [step_writeCsr s n v rest hn hi, writeCsr, nb]
    · have hs : step s = hostMove (.readCsr n) (withInputs s rest) := by simp only [step, nextTurn, hi]
      simp only [mayComeBetween, Bool.or_eq_true, Bool.and_eq_true, bne_iff_ne, decide_eq_true_eq] at hc
      obtain ⟨v, hv⟩ : ∃ v, readCsr n (withInputs s rest) = .ok v := by
        unfold readCsr
        split <;> first | exact ⟨_, rfl⟩ | exact ⟨_, if_pos (hdr (by omega))⟩
      exact ⟨{ withInputs s rest with hostReply := .word v }, by rw [hs, hostMove, hv], rfl, rfl⟩
    · cases hc
    · cases hc
  · cases hc
  · exact ⟨_, step_sink s ok rest hi, rfl, rfl⟩
  · obtain ⟨f, hf⟩ : ∃ f, runWord (.fn w) (withInputs s rest) = .next { withInputs s rest with fnOut := f } := by
      cases w with
      | flatpix n =>
        obtain ⟨x, hx⟩ : ∃ x, idxAt Params.hw n.toNat (withInputs s rest) = .ok x := by
          by_cases hn : n.toNat < s.idxLen
          · have h8 : 8 ≤ phaseNum s := by
              by_contra c
              rw [hinv.idxLenZero (by omega)] at hn
              omega
            have hil := hinv.idxLenSet h8 (by omega)
            obtain ⟨b, -, e1, e2⟩ := hinv.indices h8 hnum (n.toNat / 2) (by omega)
            rcases Nat.mod_two_eq_zero_or_one n.toNat with h2 | h2
            · rw [show 2 * (n.toNat / 2) = n.toNat by omega] at e1
              exact ⟨_, (if_pos hn).trans (readCell_of_read e1)⟩
            · rw [show 2 * (n.toNat / 2) + 1 = n.toNat by omega] at e2
              exact ⟨_, (if_pos hn).trans (readCell_of_read e2)⟩
          · exact ⟨_, if_neg hn⟩
        exact ⟨.index x, by simp only [runWord, decode, exec, execIdxat, hx]⟩
      | _ => exact ⟨_, rfl⟩
    exact ⟨_, (step_eval s w rest hi).trans hf, rfl, rfl⟩

theorem byteAt_lt (m : Memory 8) (a : Nat) : Tex.byteAt m a < 256 := BitVec.isLt _

theorem ofNat_byteAt (m : Memory 8) (a : Nat) : BitVec.ofNat 8 (Tex.byteAt m a) = (Memory.read m a).getD 0 := by
  simp [Tex.byteAt]

/-- A byte of a loaded stream, as the spec's formulas read it. -/
theorem read_of_loaded {s : State} (hl : SrcLoaded s) (h32 : 32 ≤ s.srcLen.toNat) {a : Nat} (ha : a < s.srcLen.toNat) :
    Memory.read s.src a = some (BitVec.ofNat 8 (Tex.byteAt s.src a)) := by
  obtain ⟨b, hb⟩ := Option.isSome_iff_exists.mp (hl h32 a ha)
  simp [Tex.byteAt, hb]

/-- The signed reading of four bytes (R99). -/
theorem signed_of_bytes (b0 b1 b2 b3 : Nat) (h0 : b0 < 256) (h1 : b1 < 256) (h2 : b2 < 256) (h3 : b3 < 256) :
    (BitVec.ofNat 32 (b0 + 256 * (b1 + 256 * (b2 + 256 * b3)))).toInt =
      Tex.signed32 (b0 + 2 ^ 8 * b1 + 2 ^ 16 * b2 + 2 ^ 24 * b3) := by
  simp only [Tex.signed32, BitVec.toInt_ofNat', Int.bmod_def]
  split <;> split <;> omega

/-- A dimension field as the formulas give it (R99). -/
theorem field_value (m : Memory 8) (a : Nat) :
    s32 (BitVec.ofNat 8 (Tex.byteAt m (a + 3)) ++ BitVec.ofNat 8 (Tex.byteAt m (a + 2)) ++ BitVec.ofNat 8 (Tex.byteAt m (a + 1)) ++
      BitVec.ofNat 8 (Tex.byteAt m a)) = Tex.signed32 (Tex.word32 m a) := by
  simp only [ofNat_byteAt]
  rw [← word_of_four]
  exact signed_of_bytes _ _ _ _ (byteAt_lt m a) (byteAt_lt m (a + 1)) (byteAt_lt m (a + 2)) (byteAt_lt m (a + 3))

/-- An index of an unpacked buffer as the formulas give it (R148, R161). -/
theorem index_eq {s : State} (hind : ∀ k, k < s.dataSize → ∃ b, Memory.read s.src (24 + k) = some b ∧
      Memory.read s.idx (2 * k) = some (lo b) ∧ Memory.read s.idx (2 * k + 1) = some (hi b))
    (hil : s.idxLen = 2 * s.dataSize) (hds : s.dataSize = Tex.dataSize s.src) (n : Nat) :
    (if n < s.idxLen then (Memory.read s.idx n).getD 0 else 0 : Index).toNat = Tex.indexAt s.src n := by
  unfold Tex.indexAt
  rw [← hds, hil]
  split
  · rename_i h
    obtain ⟨b, hb, h1, h2⟩ := hind (n / 2) (by omega)
    have hB : Tex.byteAt s.src (24 + n / 2) = b.toNat := by simp [Tex.byteAt, hb]
    rw [hB]
    rcases Nat.mod_two_eq_zero_or_one n with hm | hm
    · rw [show 2 * (n / 2) = n by omega] at h1
      simp [if_pos hm, h1, lo_eq]
    · rw [show 2 * (n / 2) + 1 = n by omega] at h2
      have := b.isLt
      rw [if_neg (by omega), h2, hi_eq]
      simp [Nat.shiftRight_eq_div_pow]
      omega
  · rfl

/-- The channels of a palette word as the formulas give them (R131). -/
theorem channel_eq (p : BitVec 16) :
    scale5 (r5 p) = BitVec.ofNat 8 (Tex.channel p.toNat 10) ∧ scale5 (g5 p) = BitVec.ofNat 8 (Tex.channel p.toNat 5) ∧
      scale5 (b5 p) = BitVec.ofNat 8 (Tex.channel p.toNat 0) := by
  refine ⟨?_, ?_, ?_⟩ <;> simp [scale5, r5, g5, b5, Tex.channel, BitVec.extractLsb'_toNat, Nat.shiftRight_eq_div_pow]

/-- The colour of an index as the formulas give it (R148, R162). -/
theorem colour_eq {s : State} (hpal : ∀ i (h : i < 16),
    ∃ b0 b1, Memory.read s.src (s.srcLen.toNat - 32 + 2 * i) = some b0 ∧
      Memory.read s.src (s.srcLen.toNat - 31 + 2 * i) = some b1 ∧
      s.pal[i] = cvt555 (BitVec.ofNat 16 (b0.toNat + 256 * b1.toNat))) (i : Index) :
    (if i = 0 then { r := 0, g := 0, b := 0 } else s.pal[i.toNat]'(by have := i.isLt; omega) : RGB) =
      Tex.colourOf s.src s.srcLen.toNat i.toNat := by
  unfold Tex.colourOf
  by_cases h : i = 0
  · subst h
    rfl
  · have hn : ¬ i.toNat = 0 := fun e => h (BitVec.eq_of_toNat_eq e)
    rw [if_neg h, if_neg hn]
    obtain ⟨b0, b1, e0, e1, e⟩ := hpal i.toNat i.isLt
    have hw : Tex.palWordAt s.src s.srcLen.toNat i.toNat = (BitVec.ofNat 16 (b0.toNat + 256 * b1.toNat)).toNat := by
      have := b0.isLt
      have := b1.isLt
      simp only [Tex.palWordAt, Tex.byteAt, e0, e1, Option.getD_some, BitVec.toNat_ofNat]
      omega
    rw [e, hw]
    obtain ⟨c1, c2, c3⟩ := channel_eq (BitVec.ofNat 16 (b0.toNat + 256 * b1.toNat))
    rw [cvt555, c1, c2, c3]

/-- A word that is not negative reads the same signed and unsigned (R105). -/
theorem toNat_of_nonneg (w : Word) (h : 0 ≤ w.toInt) : w.toInt.toNat = w.toNat := by
  have := w.isLt
  rw [BitVec.toInt_eq_toNat_cond] at *
  split at h <;> split <;> omega

end Sys2Proof.Machine
end

