-- ==== Sys2Proof/Tests/Slice0.lean ====
section
/-! SUPPORT. The model's own tests. Expected values come from spec/95_test_vectors.md or from the example of the rule a
test names; the theorems whose names begin with witness_ show states that meet the hypotheses of the statements. -/

namespace Sys2Proof.Tests

open Sys2Proof.Machine

/-! Helpers. -/

/-- What f reads from the next state; none when there is no next state. -/
def after {α : Type} (o : Host.Outcome State Fault Refusal) (f : State → α) : Option α :=
  match o with
  | .next t => some (f t)
  | .fault _ => none
  | .refused _ => none

/-- Bytes at rising addresses from a on. -/
def at_ {w : Nat} (a : Nat) : List (BitVec w) → Memory w
  | [] => []
  | b :: bs => (a, b) :: at_ (a + 1) bs

/-- The reset state with PHASE at p and SRC_LEN = n. -/
def inPhase (p : Phase) (n : Word) : State := { State.reset with phase := p, srcLen := n }

/-- The header part of a stream: bytes 0 to 23, with the ignored bytes zero. -/
def header (fields : List Byte) : List Byte := List.replicate 8 0 ++ fields ++ List.replicate 8 0

/-- Width 2 and height 2, as stream bytes. -/
def twoByTwo : List Byte := [2, 0, 0, 0, 2, 0, 0, 0]

/-- The stream of program P1 of 95_test_vectors.md. -/
def streamP1 : List Byte := header twoByTwo ++ [0x01, 0x11] ++ [0, 0] ++ [0xFF, 0x7F] ++ List.replicate 28 0

/-- The palette P1 loads: white at entry 1, black elsewhere. -/
def palP1 : Vector RGB 16 :=
  (Vector.replicate 16 { r := 0, g := 0, b := 0 }).setIfInBounds 1 { r := 255, g := 255, b := 255 }

/-- P1 loaded in IDLE, the host about to write 1 to CSR0. -/
def launchP1 : State :=
  { State.reset with src := at_ 0 streamP1, srcLen := 58, inputs := [.host (.writeCsr 0 1)] }

/-- P1 after its step 7: PHASE = EMITHDR. -/
def parsedP1 : State :=
  { State.reset with
    phase := .emithdr, hdrValid := true, width := 2, height := 2, npix := 4, dataSize := 2, idxLen := 4
    srcLen := 58, src := at_ 0 streamP1, pix := at_ 0 [0x01, 0x11], idx := at_ 0 [1, 0, 1, 1], pal := palP1 }

/-- A DONE state with an output of 66 bytes of which the last is 0x5A. -/
def doneState : State :=
  { State.reset with phase := .done, hdrValid := true, outLen := 66, width := 2, height := 2, npix := 4,
                     out := at_ 0 (List.replicate 65 0 ++ [0x5A]) }

/-! WellFormed: the one check, with ill-formed terms it refuses. -/

theorem test_wf_start_without_bit0_refused : (Instr.start 0).wf = false := by decide

theorem test_wf_start_with_only_ignored_bits_refused : (Instr.start 0xFFFFFFFE).wf = false := by decide

theorem test_wf_start_with_ignored_bits_accepted : (Instr.start 0xFFFFFFFF).wf = true := by decide

/-! Decoding, one word per constructor, written from the encodings of R106. -/

theorem test_decode_idle : decodeTableWord 4 0b0000 = some .idle := by decide

theorem test_decode_chklen : decodeTableWord 4 0b0001 = some .chklen := by decide

theorem test_decode_rdhdr : decodeTableWord 4 0b0010 = some .rdhdr := by decide

theorem test_decode_chkdim : decodeTableWord 4 0b0011 = some .chkdim := by decide

theorem test_decode_size : decodeTableWord 4 0b0100 = some .size := by decide

theorem test_decode_ldpix : decodeTableWord 4 0b0101 = some .ldpix := by decide

theorem test_decode_ldpal : decodeTableWord 4 0b0110 = some .ldpal := by decide

theorem test_decode_unpack : decodeTableWord 8 0b0111 = some .unpack := by decide

theorem test_decode_emithdr : decodeTableWord 8 0b1000 = some .emithdr := by decide

theorem test_decode_emitpix : decodeTableWord 8 0b1001 = some .emitpix := by decide

theorem test_decode_commit : decodeTableWord 8 0b1010 = some .commit := by decide

theorem test_decode_done : decodeTableWord 8 0b1011 = some .done := by decide

theorem test_decode_fail : decodeTableWord 8 0b1100 = some .fail := by decide

theorem test_decode_unused_codes :
    decodeTableWord 4 0b1101 = none ∧ decodeTableWord 4 0b1110 = none ∧ decodeTableWord 8 0b1111 = none := by decide

theorem test_decode_scale5 : decodeTableWord 5 0b10101 = some (.scale5 21) := by decide

theorem test_decode_cvt555 : decodeTableWord 16 0b0111110000000000 = some (.cvt555 0x7C00) := by decide

theorem test_decode_unpk : decodeTableWord 8 0b00100001 = some (.unpk 0x21) := by decide

theorem test_decode_idxat : decodeTableWord 24 0b000000000000000000001000 = some (.idxat 8) := by decide

theorem test_decode_resolve : decode (.fn (.idx4 0b1111)) = .ok (.resolve 15) := by rfl

theorem test_decode_start : decodeTableWord 32 0b00000000000000000000000000000001 = some (.start 1) := by decide

theorem test_decode_start_needs_bit0 : decodeTableWord 32 0xFFFFFFFE = none := by decide

theorem test_decode_bytes_little_endian : decodeBytes .rgb555 [0x34, 0x12] = .ok (.cvt555 0x1234) := by rfl

theorem test_decode_bytes_above_width : decodeBytes .v5 [0x20] = .error (.bitsAboveWidth .v5) := by rfl

theorem test_decode_bytes_wrong_length : decodeBytes .ctrlword [1] = .error (.wrongLength .ctrlword) := by rfl

/-! The combinational functions. -/

/-- V-C1: truncation, not rounding (25) and not bit replication (33). -/
theorem test_scale5 : scale5 3 = 24 ∧ scale5 4 = 32 ∧ scale5 16 = 131 ∧ scale5 30 = 246 := by decide

/-- R130's example, as an operation. -/
theorem test_scale5_runs : after (exec (.scale5 21) State.reset) (·.fnOut) = some (.channel 172) := by decide

/-- V-C2: mixed fields, bit 15 set. -/
theorem test_cvt555 : cvt555 0x1234 = { r := 0x20, g := 0x8B, b := 0xA4 } ∧
    cvt555 0xABCD = { r := 0x52, g := 0xF6, b := 0x6A } := by decide

theorem test_cvt555_runs :
    after (exec (.cvt555 0x7C00) State.reset) (·.fnOut) = some (.colour { r := 255, g := 0, b := 0 }) := by decide

/-- R146's example and its corner cases. -/
theorem test_unpk : after (exec (.unpk 0x21) State.reset) (·.fnOut) = some (.pair 1 2) := by decide

theorem test_unpk_f0 : after (exec (.unpk 0xF0) State.reset) (·.fnOut) = some (.pair 0 15) := by decide

/-- V-B2: the 3 × 3 case. -/
theorem test_idxat_last : after (exec (.idxat 7) { State.reset with idxLen := 8, idx := at_ 0 [1, 2, 3, 4, 5, 6, 7, 8] })
    (·.fnOut) = some (.index 8) := by decide

theorem test_idxat_past_end : after (exec (.idxat 8) { State.reset with idxLen := 8, idx := at_ 0 [1, 2, 3, 4, 5, 6, 7, 8] })
    (·.fnOut) = some (.index 0) := by decide

/-- R162's example: entry 0 is white and index 0 is black all the same. -/
theorem test_resolve_key : after (exec (.resolve 0)
      { State.reset with pal := State.reset.pal.setIfInBounds 0 { r := 255, g := 255, b := 255 } }) (·.fnOut)
    = some (.colour { r := 0, g := 0, b := 0 }) := by decide

theorem test_resolve_entry : after (exec (.resolve 1)
      { State.reset with pal := State.reset.pal.setIfInBounds 1 { r := 255, g := 0, b := 0 } }) (·.fnOut)
    = some (.colour { r := 255, g := 0, b := 0 }) := by decide

/-! The texture parser. -/

/-- V-L: SRC_LEN = 31 fails with code 4. -/
theorem test_chklen_31 : after (exec .chklen (inPhase .chklen 31)) (fun t => (t.phase, t.errCode, t.outLen))
    = some (.fail, .truncatedPalette, 0) := by decide

theorem test_chklen_32 : after (exec .chklen (inPhase .chklen 32)) (fun t => (t.phase, t.errCode))
    = some (.rdhdr, .noError) := by decide

/-- R141's example: width 2, height 3. -/
theorem test_rdhdr : after (exec .rdhdr { inPhase .rdhdr 56 with src := at_ 8 [2, 0, 0, 0, 3, 0, 0, 0] })
    (fun t => (t.width, t.height, t.hdrValid, t.phase)) = some (2, 3, true, .chkdim) := by decide

/-- V-E1: `00 00 01 00` is 65536 and `FF FF FF FF` is −1. -/
theorem test_rdhdr_byte_order : after (exec .rdhdr
      { inPhase .rdhdr 56 with src := at_ 8 [0, 0, 1, 0, 0xFF, 0xFF, 0xFF, 0xFF] })
    (fun t => (s32 t.width, s32 t.height)) = some (65536, -1) := by decide

/-- R142's example: 4097 × 1. -/
theorem test_chkdim_4097 : after (exec .chkdim { inPhase .chkdim 56 with width := 4097, height := 1 })
    (fun t => (t.phase, t.errCode, t.width)) = some (.fail, .invalidDimensions, 4097) := by decide

/-- R142: 4096 × 4096 is legal, and a top bit makes a field negative. -/
theorem test_chkdim_bounds :
    after (exec .chkdim { inPhase .chkdim 56 with width := 4096, height := 4096 }) (·.phase) = some .size ∧
    after (exec .chkdim { inPhase .chkdim 56 with width := 1, height := 0x80000000 }) (·.phase) = some .fail := by decide

/-- R143's example. -/
theorem test_size_3x3 : after (exec .size { inPhase .size 56 with width := 3, height := 3 })
    (fun t => (t.npix, t.dataSize, t.phase)) = some (9, 4, .ldpix) := by decide

/-- R143: 4096 × 4096. -/
theorem test_size_largest : after (exec .size { inPhase .size 56 with width := 4096, height := 4096 })
    (fun t => (t.npix, t.dataSize)) = some (16777216, 8388608) := by decide

/-- R144's example: PIX[0] = SRC[24], PIX[1] = SRC[25]. -/
theorem test_ldpix : after (exec .ldpix { inPhase .ldpix 32 with dataSize := 2, src := at_ 24 [0x01, 0x11, 0xEE] })
    (fun t => (t.pix, t.phase)) = some ([(0, 0x01), (1, 0x11)], .ldpal) := by decide

/-- V-L: SRC_LEN = 55, DATASIZE = 32 fails with code 3. -/
theorem test_ldpix_short : after (exec .ldpix { inPhase .ldpix 55 with dataSize := 32 })
    (fun t => (t.phase, t.errCode, t.pix)) = some (.fail, .truncatedData, []) := by decide

/-- R145's example, and V-E2's 0x1234 at the last entry. -/
theorem test_ldpal : after (exec .ldpal { inPhase .ldpal 58 with
      dataSize := 2, src := at_ 26 ([0, 0, 0xFF, 0x7F] ++ List.replicate 26 0 ++ [0x34, 0x12]) })
    (fun t => (t.pal[0], t.pal[1], t.pal[15], t.phase))
    = some ({ r := 0, g := 0, b := 0 }, { r := 255, g := 255, b := 255 }, { r := 0x20, g := 0x8B, b := 0xA4 }, .unpack) := by
  decide

/-- R145: SRC_LEN = 55 + DATASIZE raises. -/
theorem test_ldpal_overlap : after (exec .ldpal { inPhase .ldpal 87 with dataSize := 32 })
    (fun t => (t.phase, t.errCode)) = some (.fail, .truncatedPalette) := by decide

/-- R147's example: `01 11` gives 1, 0, 1, 1. -/
theorem test_unpack : after (exec .unpack { inPhase .unpack 58 with dataSize := 2, pix := at_ 0 [0x01, 0x11] })
    (fun t => (t.idx, t.idxLen, t.phase)) = some ([(0, 1), (1, 0), (2, 1), (3, 1)], 4, .emithdr) := by decide

/-- R147: DATASIZE = 0 writes nothing. -/
theorem test_unpack_nothing : after (exec .unpack { inPhase .unpack 56 with dataSize := 0 })
    (fun t => (t.idx, t.idxLen, t.phase)) = some ([], 0, .emithdr) := by decide

/-! The bitmap encoder. -/

/-- R160's example, the bytes 0 to 29 and the length. -/
theorem test_emithdr : after (exec .emithdr parsedP1) (fun t => ((t.out.map (·.2)).take 30, t.outLen, t.phase))
    = some ([0x42, 0x4D, 0x42, 0, 0, 0, 0, 0, 0, 0, 0x36, 0, 0, 0, 0x28, 0, 0, 0, 2, 0, 0, 0, 2, 0, 0, 0, 1, 0, 0x18, 0],
        54, .emitpix) := by decide

/-- The last 24 header bytes are zero (R160). -/
theorem test_emithdr_tail : after (exec .emithdr parsedP1) (fun t => (t.out.map (·.2)).drop 30)
    = some (List.replicate 24 0) := by decide

/-- R163's example. -/
theorem test_emitpix : after (exec .emitpix { parsedP1 with phase := .emitpix, outLen := 54 })
    (fun t => (t.out.map (·.2), t.outLen, t.phase))
    = some ([0xFF, 0xFF, 0xFF, 0xFF, 0xFF, 0xFF, 0xFF, 0xFF, 0xFF, 0, 0, 0], 66, .commit) := by decide

/-- V-B4: 1 × 4, a column is reversed; the channels leave in the order red, green, blue. -/
theorem test_emitpix_column : after (exec .emitpix { inPhase .emitpix 58 with
      width := 1, height := 2, npix := 2, idxLen := 2, idx := at_ 0 [1, 2], outLen := 54
      pal := (palP1.setIfInBounds 1 { r := 255, g := 0, b := 0 }).setIfInBounds 2 { r := 0, g := 0, b := 255 } })
    (fun t => t.out) = some [(54, 0), (55, 0), (56, 0xFF), (57, 0xFF), (58, 0), (59, 0)] := by decide

/-- R165: the sink accepts. -/
theorem test_commit : after (exec .commit (inPhase .commit 58)) (fun t => (t.phase, t.errCode))
    = some (.done, .noError) := by decide

/-- V-B5: the sink refuses. -/
theorem test_commit_write_error : after (exec .commit { inPhase .commit 58 with sinkOk := false, hdrValid := true, outLen := 66 })
    (fun t => (t.phase, t.errCode, t.outLen, status t)) = some (.fail, .writeError, 0, 0x000005CC) := by decide

/-! Halt states, START, host and reset. -/

theorem test_idle : after (exec .idle State.reset) id = some State.reset := by decide

theorem test_done : after (exec .done doneState) (fun t => (status t, t.outLen)) = some (0x000000AB, 66) := by decide

theorem test_fail : after (exec .fail { inPhase .fail 20 with errCode := .truncatedPalette }) status
    = some 0x0000044C := by decide

/-- R180's example. -/
theorem test_start_in_fail : after (exec (.start 1) { inPhase .fail 58 with errCode := .invalidDimensions, hdrValid := true })
    (fun t => (t.phase, t.errCode, status t, t.srcLen)) = some (.chklen, .noError, 0x00000011, 58) := by decide

/-- V-S: START while BUSY is ignored. -/
theorem test_start_busy : after (exec (.start 1) parsedP1) id = some parsedP1 := by decide

/-- V-S: nothing loaded, CHKLEN sees SRC_LEN = 0. -/
theorem test_first_step_of_a_placed_word :
    after (step (State.reset.withFetchWord 4 1)) status = some 0x0000044C := by decide

/-- V-S: the last byte of a 66-byte output is readable, the next is refused. -/
theorem test_read_out : after (step { doneState with inputs := [.host (.readOut 65)] }) (·.hostReply)
      = some (.byte 0x5A) ∧
    after (step { doneState with inputs := [.host (.readOut 66)] }) (·.hostReply) = none := by decide

/-- V-S: a mid-run reset. -/
theorem test_reset_mid_run : after (step { parsedP1 with inputs := [.host .assertReset] })
    (fun t => (status t, t.srcLen, t.outLen, t.src)) = some (0, 0, 0, []) := by decide

/-- V-S: a CSR2 write while BUSY is dropped. -/
theorem test_srclen_interlock : after (step { parsedP1 with inputs := [.host (.writeCsr 2 7)] }) (·.srcLen) = some 58 ∧
    after (step { doneState with inputs := [.host (.writeCsr 2 58)] }) (·.srcLen) = some 58 := by decide

/-! V-L2: with OVERLAP_CHECK = 0 the palette is the whole 32-byte stream. -/

/-- The stream of V-L2. -/
def streamVL2 : List Byte :=
  [0, 0, 0x1F, 0, 0xE0, 0x03, 0, 0x7C] ++ twoByTwo ++ List.replicate 8 0 ++ [0x54, 0x76] ++ List.replicate 6 0

theorem test_ldpal_without_check : after (ldpalWith { Params.hw with overlapCheck := false }
      { inPhase .ldpal 32 with dataSize := 2, src := at_ 0 streamVL2 })
    (fun t => (t.pal[1], t.pal[4], t.pal[5], t.pal[6], t.phase))
    = some ({ r := 0, g := 0, b := 255 }, { r := 0, g := 0, b := 16 }, { r := 0, g := 0, b := 0 },
        { r := 0, g := 0, b := 16 }, .unpack) := by decide

/-! Witnesses. witness_<statement>: a state and operands that meet the hypotheses of that statement, clause by clause. -/

theorem witness_DecodeOfEncodedBytesGivesTheOperation :
    (Instr.start 1).wf = true ∧ (Instr.start 0xFFFFFFFF).wf = true ∧ (Instr.idxat 0xFFFFFF).wf = true := by decide

theorem witness_DecodeReadsTheTablesWords :
    (0x00000001 : Word).getLsbD 0 = true ∧ (0xFFFFFFFE : Word).getLsbD 0 = false := by decide

theorem witness_EncodeOfDecodedBytesGivesTheBytes :
    decodeBytes .ctrlword [1, 0, 0, 0x80] = .ok (.start 0x80000001) ∧
    decodeBytes .opcode [12] = .ok .fail ∧ decodeBytes .v5 [31] = .ok (.scale5 31) := ⟨rfl, rfl, rfl⟩

/-- The four turns, in one state each. -/
theorem witness_StepRunsTheDecodedOperation :
    ({ launchP1 with inputs := [] }.inputs = [] ∧ decode (.opcode launchP1.phase.code) = .ok .idle) ∧
    ({ launchP1 with inputs := [.core] }.inputs = .core :: [] ∧ decode (.opcode launchP1.phase.code) = .ok .idle) ∧
    (launchP1.inputs = .host (.writeCsr 0 1) :: [] ∧ decode (.ctrlword 1) = .ok (.start 1)) ∧
    ({ launchP1 with inputs := [.eval (.pixb 0x21)] }.inputs = .eval (.pixb 0x21) :: [] ∧
      decode (.fn (.pixb 0x21)) = .ok (.unpk 0x21)) := ⟨⟨rfl, rfl⟩, ⟨rfl, rfl⟩, ⟨rfl, rfl⟩, rfl, rfl⟩

theorem witness_PlacedTableWordRunsNext :
    decodeTableWord 4 12 = some .fail ∧ decodeTableWord 8 16 = some (.unpk 16) ∧ decodeTableWord 32 1 = some (.start 1) := by
  decide

theorem witness_Scale5IsMonotoneAndBounded :
    ((3 : BitVec 5).toNat ≤ (4 : BitVec 5).toNat) ∧ scale5 31 = scale5 31 := by decide

/-- n = IDX_LEN − 1 and n = IDX_LEN. -/
theorem witness_IdxatAnswersPastTheEnd :
    ((3 : BitVec 24).toNat < parsedP1.idxLen ∧ Memory.read parsedP1.idx (3 : BitVec 24).toNat = some 1) ∧
    parsedP1.idxLen ≤ (4 : BitVec 24).toNat := by decide

theorem witness_ResolveSubstitutesTheKey : ((0 : Index) = 0) ∧ ((15 : Index).toNat < 16 ∧ (15 : Index) ≠ 0) := by decide

theorem witness_ChklenChecksTheLength :
    (inPhase .chklen 31).srcLen.toNat < 32 ∧ 32 ≤ (inPhase .chklen 32).srcLen.toNat := by decide

theorem witness_RdhdrReadsTheTwoFields :
    (∀ a, a < 4 → (Memory.read launchP1.src (8 + a)).isSome) ∧ Memory.read launchP1.src 8 = some 2 ∧
    (∀ a, a < 4 → (Memory.read launchP1.src (12 + a)).isSome) ∧ Memory.read launchP1.src 15 = some 0 := by decide

/-- Both sides of both bounds, in each field. -/
theorem witness_ChkdimChecksTheDimensions :
    ({ launchP1 with width := 0, height := 1 }.width.toInt ≤ 0) ∧ (4096 < { launchP1 with width := 4097 }.width.toInt) ∧
    ({ launchP1 with height := 0x80000000 }.height.toInt ≤ 0) ∧ (4096 < { launchP1 with height := 4097 }.height.toInt) ∧
    (1 ≤ { launchP1 with width := 1, height := 4096 }.width.toInt ∧
      { launchP1 with width := 1, height := 4096 }.width.toInt ≤ 4096 ∧
      1 ≤ { launchP1 with width := 1, height := 4096 }.height.toInt ∧
      { launchP1 with width := 1, height := 4096 }.height.toInt ≤ 4096) := by decide

theorem witness_SizeMultipliesExactly :
    0 ≤ ({ launchP1 with width := 4096, height := 4096 }.width.toInt * { launchP1 with width := 4096, height := 4096 }.height.toInt)
      ∧ 1 ≤ parsedP1.width.toInt ∧ parsedP1.width.toInt ≤ 4096 ∧ 1 ≤ parsedP1.height.toInt ∧ parsedP1.height.toInt ≤ 4096 := by
  decide

/-- SRC_LEN one below and at 24 + DATASIZE. -/
theorem witness_LdpixCopiesThePackedBytes :
    ({ parsedP1 with srcLen := 25 }.srcLen.toNat < 24 + parsedP1.dataSize) ∧
    (24 + parsedP1.dataSize ≤ { parsedP1 with srcLen := 26 }.srcLen.toNat ∧
      ∀ k, k < parsedP1.dataSize → (Memory.read parsedP1.src (24 + k)).isSome) := by decide

/-- SRC_LEN one below and at 56 + DATASIZE. -/
theorem witness_LdpalLoadsTheLastThirtyTwoBytes :
    ({ parsedP1 with srcLen := 57 }.srcLen.toNat < 56 + parsedP1.dataSize) ∧
    (56 + parsedP1.dataSize ≤ parsedP1.srcLen.toNat ∧
      ∀ j, j < 32 → Memory.read parsedP1.src (parsedP1.srcLen.toNat - 32 + j) = some (streamP1.getD (26 + j) 0)) := by decide

/-- OVERLAP_CHECK = 1 with an overlap; V-L2's stream of 32 bytes with OVERLAP_CHECK = 0; P1's with no overlap. -/
theorem witness_LdpalFollowsOverlapCheck :
    (Params.hw.overlapCheck = true ∧ (inPhase .ldpal 55).srcLen.toNat < 56 + (inPhase .ldpal 55).dataSize) ∧
    ({ Params.hw with overlapCheck := false }.overlapCheck = false ∧ 32 ≤ (inPhase .ldpal 32).srcLen.toNat ∧
      ∀ j, j < 32 → Memory.read { inPhase .ldpal 32 with src := at_ 0 streamVL2 }.src
        ((inPhase .ldpal 32).srcLen.toNat - 32 + j) = some (streamVL2.getD j 0)) ∧
    (56 + parsedP1.dataSize ≤ parsedP1.srcLen.toNat ∧ 32 ≤ parsedP1.srcLen.toNat) := by decide

theorem witness_UnpackFillsTheIndexBuffer :
    (∀ k, k < parsedP1.dataSize → (Memory.read parsedP1.pix k).isSome) ∧ Memory.read parsedP1.pix 1 = some 0x11 := by decide

theorem witness_EmitpixSerialisesBottomUp :
    ∀ n, n < parsedP1.idxLen → n < parsedP1.width.toInt.toNat * parsedP1.height.toInt.toNat →
      Memory.read parsedP1.idx n = some (([1, 0, 1, 1] : List Index).getD n 0) := by decide

theorem witness_CommitAsksTheSink :
    State.reset.sinkOk = true ∧ { State.reset with sinkOk := false }.sinkOk = false := by decide

theorem witness_HaltStatesChangeNothing : Halted doneState ∧ doneState.inputs = [] := ⟨.inr (.inl rfl), rfl⟩

theorem witness_StartBeginsARun : (0xFFFFFFFF : Word).getLsbD 0 = true ∧ Halted doneState := ⟨rfl, .inr (.inl rfl)⟩

/-- PHASE = 1 and PHASE = 10; a CSR0 write with bit 0 = 0. -/
theorem witness_StartIsDroppedWhileBusy :
    (1 ≤ phaseNum (inPhase .chklen 0) ∧ phaseNum (inPhase .chklen 0) ≤ 10) ∧
    (1 ≤ phaseNum (inPhase .commit 0) ∧ phaseNum (inPhase .commit 0) ≤ 10) ∧
    ((0xFFFFFFFE : Word).getLsbD 0 = false ∧
      { State.reset with inputs := [.host (.writeCsr 0 0xFFFFFFFE)] }.inputs = .host (.writeCsr 0 0xFFFFFFFE) :: []) := by
  decide

/-- The clauses: the greatest address of the least SRC_CAP in both kinds of state, SRC_CAP itself, CSR2 in both, and CSR1. -/
theorem witness_HostWritesObeyTheInterlock :
    (8388663 < Params.hw.srcCap ∧ { doneState with inputs := [.host (.writeSrc 8388663 1)] }.inputs
      = .host (.writeSrc 8388663 1) :: [] ∧ Halted doneState) ∧
    ({ parsedP1 with inputs := [.host (.writeSrc 0 1)] }.inputs = .host (.writeSrc 0 1) :: [] ∧ ¬ Halted parsedP1) ∧
    (Params.hw.srcCap ≤ Params.hw.srcCap ∧ { doneState with inputs := [.host (.writeSrc Params.hw.srcCap 1)] }.inputs
      = .host (.writeSrc Params.hw.srcCap 1) :: []) ∧
    ({ doneState with inputs := [.host (.writeCsr 2 58)] }.inputs = .host (.writeCsr 2 58) :: [] ∧ Halted doneState) ∧
    ({ parsedP1 with inputs := [.host (.writeCsr 2 7)] }.inputs = .host (.writeCsr 2 7) :: [] ∧ ¬ Halted parsedP1) ∧
    (1 ≠ 0 ∧ 1 ≠ 2 ∧ { parsedP1 with inputs := [.host (.writeCsr 1 7)] }.inputs = .host (.writeCsr 1 7) :: []) := by
  have hb : ¬ Halted parsedP1 := by rintro (h | h | h) <;> cases h
  refine ⟨⟨?_, rfl, .inr (.inl rfl)⟩, ⟨rfl, hb⟩, ⟨Nat.le_refl _, rfl⟩, ⟨rfl, .inr (.inl rfl)⟩, ⟨rfl, hb⟩, by decide,
    by decide, rfl⟩
  simp only [Params.hw, Config.srcCapLeast]
  omega

/-- Every register, with the word it reads; CSR3 and CSR4 with and without a value. -/
theorem witness_HostReadsOfCsrsReturnTheWord :
    ({ doneState with inputs := [.host (.readCsr 5)] }.inputs = .host (.readCsr 5) :: []) ∧
    ((0 : Nat) = 0 ∧ (0 : Word) = 0) ∧ (1 = 1 ∧ (0x000000AB : Word) = status doneState) ∧
    (2 = 2 ∧ (0 : Word) = doneState.srcLen) ∧ (3 = 3 ∧ doneState.hdrValid = true ∧ (2 : Word) = doneState.width) ∧
    (4 = 4 ∧ doneState.hdrValid = true ∧ (2 : Word) = doneState.height) ∧
    (5 = 5 ∧ doneState.outLen < 2 ^ 32 ∧ (66 : Word).toNat = doneState.outLen) ∧ (6 ≤ 6 ∧ (0 : Word) = 0) ∧
    ((3 = 3 ∨ 3 = 4) ∧ State.reset.hdrValid = false) ∧ ((4 = 3 ∨ 4 = 4) ∧ State.reset.hdrValid = false) := by decide

/-- The last byte, the address past it, and a state that is not DONE. -/
theorem witness_HostReadsOutOnlyWhenDone :
    ({ doneState with inputs := [.host (.readOut 65)] }.inputs = .host (.readOut 65) :: []) ∧
    (doneState.phase = .done ∧ 65 < doneState.outLen ∧ Memory.read doneState.out 65 = some 0x5A) ∧
    doneState.outLen ≤ 66 ∧ parsedP1.phase ≠ .done := by decide

theorem witness_AssertResetGivesTheResetState :
    { parsedP1 with inputs := [.host .assertReset, .core] }.inputs = .host .assertReset :: [.core] := rfl

theorem witness_SinkAnswerIsAnInput : { parsedP1 with inputs := [.sink false] }.inputs = .sink false :: [] := rfl

/-- P1 parsed, with element 1 of IDX unwritten: the one EMITPIX looks up last. -/
def parsedWithoutLastShown : State := { parsedP1 with idx := [(0, 1), (2, 1), (3, 1)] }

/-- The clauses, with the cell that holds no value first or last among those read. -/
theorem witness_CellWithoutValueStopsTheStep :
    (7 < 8 ∧ Memory.read { parsedP1 with src := at_ 8 [2, 0, 0, 0, 2, 0, 0] }.src (8 + 7) = none ∧
      ∀ j, j < 7 → (Memory.read { parsedP1 with src := at_ 8 [2, 0, 0, 0, 2, 0, 0] }.src (8 + j)).isSome) ∧
    (1 < parsedP1.dataSize ∧ 24 + parsedP1.dataSize ≤ parsedP1.srcLen.toNat ∧
      Memory.read { parsedP1 with src := at_ 24 [7] }.src (24 + 1) = none ∧
      ∀ j, j < 1 → (Memory.read { parsedP1 with src := at_ 24 [7] }.src (24 + j)).isSome) ∧
    (31 < 32 ∧ 56 + parsedP1.dataSize ≤ parsedP1.srcLen.toNat ∧
      Memory.read { parsedP1 with src := at_ 26 (List.replicate 31 0) }.src (parsedP1.srcLen.toNat - 32 + 31) = none ∧
      ∀ j, j < 31 →
        (Memory.read { parsedP1 with src := at_ 26 (List.replicate 31 0) }.src (parsedP1.srcLen.toNat - 32 + j)).isSome) ∧
    (0 < parsedP1.dataSize ∧ Memory.read State.reset.pix 0 = none ∧ ∀ j, j < 0 → (Memory.read State.reset.pix j).isSome) ∧
    (3 < 2 * 2 ∧ Tex.shownPixel 2 2 3 = 1 ∧ 1 < parsedWithoutLastShown.idxLen ∧
      Memory.read parsedWithoutLastShown.idx 1 = none ∧
      ∀ q, q < 3 → (Memory.read parsedWithoutLastShown.idx (Tex.shownPixel 2 2 q)).isSome) ∧
    ((3 : BitVec 24).toNat < parsedP1.idxLen ∧ Memory.read State.reset.idx (3 : BitVec 24).toNat = none) ∧
    ({ doneState with out := [], inputs := [.host (.readOut 65)] }.inputs = .host (.readOut 65) :: [] ∧
      doneState.phase = .done ∧ 65 < doneState.outLen ∧ Memory.read { doneState with out := [] }.out 65 = none) := by decide

/-- Four bytes, and the last byte alone and the last two, at the end of what is written. -/
theorem witness_WideReadsAreLittleEndian :
    Memory.read (at_ 8 [1, 2, 3, 4] : Memory 8) 8 = some 1 ∧ Memory.read (at_ 8 [1, 2, 3, 4] : Memory 8) (8 + 1) = some 2 ∧
    Memory.read (at_ 8 [1, 2, 3, 4] : Memory 8) (8 + 2) = some 3 ∧
    Memory.read (at_ 8 [1, 2, 3, 4] : Memory 8) (8 + 3) = some 4 := by decide

theorem witness_EveryStepKeepsMemoriesCanonical : MemoriesWf parsedP1 ∧ ∃ t, step parsedP1 = .next t :=
  ⟨⟨rfl, rfl, rfl, rfl⟩, _, rfl⟩

/-- P1 before EMITHDR meets the phase invariant. -/
theorem witness_RunInv : RunInv parsedP1 where
  error := by decide
  headerNotRead := by decide
  headerRead := by decide
  headerFail := by decide
  dims := fun _ _ => ⟨⟨by decide, by decide⟩, by decide, by decide⟩
  sizes := by decide
  idxLenZero := by decide
  idxLenSet := by decide
  outLenZero := by decide
  outLenHeader := by decide
  outLenAll := by decide
  lenHeader := by decide
  lenPixels := by decide
  lenPalette := by decide
  pixels := by
    intro _ _ k hk
    have hk2 : k < 2 := hk
    interval_cases k <;> exact ⟨_, rfl, rfl⟩
  palette := by
    intro _ _ i hi
    interval_cases i <;> exact ⟨_, _, rfl, rfl, rfl⟩
  indices := by
    intro _ _ k hk
    have hk2 : k < 2 := hk
    interval_cases k <;> exact ⟨_, rfl, rfl, rfl⟩
  outWritten := fun a h => absurd h (Nat.not_lt_zero a)
  fits := ⟨by decide, by decide, by decide, by decide⟩

/-- P1's stream is loaded. -/
theorem witness_SrcLoaded : SrcLoaded parsedP1 := by
  intro _
  change ∀ a, a < 58 → (Memory.read parsedP1.src a).isSome
  decide

/-- For StatusTakesSeventeenValues, EveryStepKeepsRunInv, NoStopUnderTheLaunchPremises, EveryRunEndsWithinTenSteps. -/
theorem witness_RunStatements :
    RunInv parsedP1 ∧ SrcLoaded parsedP1 ∧ parsedP1.inputs = [] ∧ ¬ Halted parsedP1 ∧ ∃ t, step parsedP1 = .next t :=
  ⟨witness_RunInv, witness_SrcLoaded, rfl, (by rintro (h | h | h) <;> cases h), _, rfl⟩

/-- The host reads the last byte of an output, in DONE, under the phase invariant: a 1 × 1 bitmap. -/
theorem witness_NoStopUnderTheLaunchPremises_host :
    ∃ s : State, RunInv s ∧ SrcLoaded s ∧ s.inputs = .host (.readOut 56) :: [] ∧ s.phase = .done ∧ 56 < s.outLen := by
  refine ⟨{ State.reset with
    phase := .done, hdrValid := true, width := 1, height := 1, npix := 1, outLen := 57, out := at_ 0 (List.replicate 57 0)
    inputs := [.host (.readOut 56)] }, ?_, ?_, rfl, rfl, by decide⟩
  · exact
      { error := by decide
        headerNotRead := by decide
        headerRead := by decide
        headerFail := by decide
        dims := fun _ _ => ⟨⟨by decide, by decide⟩, by decide, by decide⟩
        sizes := by decide
        idxLenZero := by decide
        idxLenSet := by decide
        outLenZero := by rintro (h | h) <;> revert h <;> decide
        outLenHeader := by decide
        outLenAll := by decide
        lenHeader := fun _ h => absurd h (by decide)
        lenPixels := fun _ h => absurd h (by decide)
        lenPalette := fun _ h => absurd h (by decide)
        pixels := fun _ h => absurd h (by decide)
        palette := fun _ h => absurd h (by decide)
        indices := fun _ h => absurd h (by decide)
        outWritten := by
          change ∀ a, a < 57 → _
          decide
        fits := ⟨by decide, by decide, by decide, by decide⟩ }
  · intro h
    exact absurd h (by decide)

/-- P1 before RDHDR: the five registers hold nothing yet. -/
def beforeHeader : State := { launchP1 with phase := .rdhdr, inputs := [] }

/-- Two states before RDHDR that differ in all five registers. -/
theorem witness_UnwrittenRegistersAreNotRead :
    RunInv beforeHeader ∧
    AgreeOnWritten beforeHeader { beforeHeader with width := 7, height := 8, npix := 9, dataSize := 10, pal := palP1 } ∧
    (∀ w rest, beforeHeader.inputs ≠ .eval w :: rest) ∧ ∃ t, step beforeHeader = .next t := by
  refine ⟨?_, ⟨rfl, (fun h => absurd h (by decide)), (fun h => absurd h (by decide)), (fun h => absurd h (by decide))⟩,
    (fun _ _ h => by cases h), _, rfl⟩
  exact
    { error := by decide
      headerNotRead := by decide
      headerRead := by decide
      headerFail := by decide
      dims := fun h => absurd h (by decide)
      sizes := by decide
      idxLenZero := by decide
      idxLenSet := by decide
      outLenZero := by decide
      outLenHeader := by decide
      outLenAll := by decide
      lenHeader := by decide
      lenPixels := by decide
      lenPalette := by decide
      pixels := fun h => absurd h (by decide)
      palette := fun h => absurd h (by decide)
      indices := fun h => absurd h (by decide)
      outWritten := fun a h => absurd h (Nat.not_lt_zero a)
      fits := ⟨by decide, by decide, by decide, by decide⟩ }

/-- One state for each of the four ways. -/
theorem witness_PhaseChangesOnlyAsListed :
    (∃ t, step parsedP1 = .next t ∧ t.phase ≠ parsedP1.phase) ∧
    (∃ t, step (inPhase .chklen 31) = .next t ∧ t.phase ≠ .chklen) ∧
    (∃ t, step launchP1 = .next t ∧ t.phase ≠ launchP1.phase) ∧
    (∃ t, step { parsedP1 with inputs := [.host .assertReset] } = .next t ∧ t.phase ≠ parsedP1.phase) :=
  ⟨⟨_, rfl, by decide⟩, ⟨_, rfl, by decide⟩, ⟨_, rfl, by decide⟩, _, rfl, by decide⟩

/-- One state for each of the five errors. -/
theorem witness_EveryErrorHasItsCause :
    (∃ t, step (inPhase .chklen 31) = .next t ∧ t.phase = .fail ∧ (inPhase .chklen 31).phase ≠ .fail) ∧
    (∃ t, step (inPhase .chkdim 56) = .next t ∧ t.phase = .fail ∧ (inPhase .chkdim 56).phase ≠ .fail) ∧
    (∃ t, step { inPhase .ldpix 55 with dataSize := 32 } = .next t ∧ t.phase = .fail) ∧
    (∃ t, step { inPhase .ldpal 87 with dataSize := 32 } = .next t ∧ t.phase = .fail) ∧
    (∃ t, step { inPhase .commit 58 with sinkOk := false } = .next t ∧ t.phase = .fail) :=
  ⟨⟨_, rfl, rfl, by decide⟩, ⟨_, rfl, rfl, by decide⟩, ⟨_, rfl, rfl⟩, ⟨_, rfl, rfl⟩, _, rfl, rfl⟩

/-- A busy state, and a halt state on the core's turn. -/
theorem witness_SourceIsStableDuringARun :
    ((∃ t, step parsedP1 = .next t) ∧ (∀ rest, parsedP1.inputs ≠ .host .assertReset :: rest) ∧ ¬ Halted parsedP1) ∧
    ((∃ t, step { doneState with inputs := [.core] } = .next t) ∧
      (∀ rest, { doneState with inputs := [.core] }.inputs ≠ .host .assertReset :: rest) ∧ Halted doneState ∧
      { doneState with inputs := [.core] }.inputs.head? = some .core) :=
  ⟨⟨⟨_, rfl⟩, (fun _ h => by cases h), by rintro (h | h | h) <;> cases h⟩, ⟨_, rfl⟩, (fun _ h => by cases h),
    .inr (.inl rfl), rfl⟩

/-- What comes between P1's core turns: a dropped START, reads of CSR1 and, once it has a value, CSR3, a dropped write of
CSR2, a refusing sink and then an accepting one, and a word put to IDXAT. -/
def betweenP1 : List Input :=
  [.host (.writeCsr 0 1), .core, .host (.readCsr 1), .core, .host (.readCsr 3), .core, .sink false, .core,
   .host (.writeCsr 2 7), .core, .core, .core, .eval (.flatpix 3), .core, .core, .sink true, .core]

/-- P1 with `betweenP1` to come, and a read of the output after the run. -/
def launchBetween : State := { launchP1 with inputs := .host (.writeCsr 0 1) :: (betweenP1 ++ [.host (.readOut 65)]) }

theorem witness_mayComeBetween : mayComeBetween 4 (.host (.writeSrc 8388663 1)) = true ∧
    mayComeBetween 1 (.host (.readCsr 3)) = false ∧ mayComeBetween 2 (.host (.readCsr 3)) = true := by
  refine ⟨decide_eq_true ?_, by decide, by decide⟩
  simp only [Params.hw, Config.srcCapLeast]
  omega

/-- Nothing else to come: the ten turns are those an empty list leaves to the core. -/
theorem witness_Launch_nothing_else : Launch launchP1 [] [] 10 :=
  ⟨.inl rfl, ⟨1, rfl, rfl⟩, witness_SrcLoaded, .inr rfl, by decide⟩

/-- Moves, answers and a function word between the turns, and a move after the run. -/
theorem witness_Launch_between : Launch launchBetween betweenP1 [.host (.readOut 65)] 0 :=
  ⟨.inl rfl, ⟨1, rfl, rfl⟩, witness_SrcLoaded, .inl rfl, by decide⟩

/-- The shortest run: SRC_LEN = 31 and no byte loaded. -/
theorem witness_Launch_short : Launch { inPhase .idle 31 with inputs := [.host (.writeCsr 0 1), .core] } [.core] [] 0 :=
  ⟨.inl rfl, ⟨1, rfl, rfl⟩, (fun h => absurd h (by decide)), .inl rfl, by decide⟩

/-- Both outcomes of RunConvertsTheStream. -/
theorem witness_RunConvertsTheStream :
    Tex.verdict launchBetween.src launchBetween.srcLen.toNat (sinkAfter launchBetween.sinkOk betweenP1) = .noError ∧
    Tex.verdict (inPhase .idle 31).src (inPhase .idle 31).srcLen.toNat (sinkAfter true [.core]) ≠ .noError := by decide

/-- Two launches of P1 that differ in an ignored byte, in what comes between the turns and in the rest of the state. -/
theorem witness_ResultDependsOnTheStreamOnly :
    Launch launchBetween betweenP1 [.host (.readOut 65)] 0 ∧
    Launch { launchP1 with src := Memory.write launchP1.src 0 0x54, phase := .done, outLen := 9 } [] [] 10 ∧
    sinkAfter launchP1.sinkOk [] = sinkAfter launchBetween.sinkOk betweenP1 ∧
    Memory.read (Memory.write launchP1.src 0 0x54) 0 ≠ Memory.read launchP1.src 0 ∧
    ∀ a, Tex.MayBeRead launchP1.src launchP1.srcLen.toNat a →
      Memory.read (Memory.write launchP1.src 0 0x54) a = Memory.read launchP1.src a := by
  refine ⟨witness_Launch_between, ⟨.inr (.inl rfl), ⟨1, rfl, rfl⟩, ?_, .inr rfl, by decide⟩, by decide, by decide, ?_⟩
  · intro _
    change ∀ a, a < 58 → (Memory.read (Memory.write launchP1.src 0 0x54) a).isSome
    decide
  · rintro a ⟨-, h⟩
    have hl : launchP1.srcLen.toNat = 58 := rfl
    exact Memory.read_write_other _ _ _ _ (by omega)

end Sys2Proof.Tests
end

namespace Sys2Proof.Machine

/-- A word that decodes runs as its operation. -/
theorem runWord_of_decode {w : CodeWord} {i : Instr} (h : decode w = .ok i) (s : State) : runWord w s = exec i s := by
  simp only [runWord, h]

/-- The operation PHASE's code decodes to is the one the core's turn runs (R97). -/
theorem operation_of_decode {p : Phase} {i : Instr} (h : decode (.opcode p.code) = .ok i) : Phase.operation p = i :=
  Except.ok.inj ((decode_phase p).symm.trans h)

/-- Settles O4: `step` by the first input, then `runWord` on a word that decodes. -/
theorem stepRunsTheDecodedOperation : Obligations.StepRunsTheDecodedOperation := by
  intro s i
  refine ⟨fun hs h => ?_, fun rest hs h => ?_, fun v rest hs h => ?_, fun w rest hs h => ?_⟩
  · rw [step_core_empty s hs, operation_of_decode h]
  · rw [step_core s rest hs, operation_of_decode h]
    rfl
  · rw [step_writeCtrl s v rest hs, runWord_of_decode h]
    rfl
  · rw [step_eval s w rest hs, runWord_of_decode h]
    rfl

end Sys2Proof.Machine

namespace Sys2Proof.Machine

/-! Reads of a cell without value (R10, R232, log 4): what each operation that reads a memory does when it meets one. -/

theorem readCell_of_none {w : Nat} {sp : Space} {m : Memory w} {a : Nat} (h : Memory.read m a = none) :
    readCell sp m a = .error (.unwrittenCell sp a) := by simp only [readCell, h]

/-- A read of n written bytes completes. -/
theorem memRead_completes {sp : Space} {m : Memory 8} {a : Nat} (n : Nat)
    (h : ∀ j, j < n → (Memory.read m (a + j)).isSome) : ∃ v, memRead sp m a n = .ok v := by
  induction n generalizing a with
  | zero => exact ⟨0, rfl⟩
  | succ n ih =>
    obtain ⟨b, hb⟩ := Option.isSome_iff_exists.mp (h 0 (Nat.succ_pos n))
    rw [Nat.add_zero] at hb
    obtain ⟨v, hv⟩ := ih (a := a + 1) fun j hj => by
      rw [Nat.add_right_comm]
      exact h (j + 1) (Nat.succ_lt_succ hj)
    exact ⟨b.toNat + 256 * v, by simp only [memRead, readCell_of_read hb, hv]⟩

theorem read_eq_byteAt {m : Memory 8} {a : Nat} (h : (Memory.read m a).isSome) :
    Memory.read m a = some (BitVec.ofNat 8 (Tex.byteAt m a)) := by
  obtain ⟨b, hb⟩ := Option.isSome_iff_exists.mp h
  rw [ofNat_byteAt, hb, Option.getD_some]

/-- FLD32 over written bytes reads the field's signed value (R99). -/
theorem fld32_written {m : Memory 8} {a : Nat} (h : ∀ j, j < 4 → (Memory.read m (a + j)).isSome) :
    ∃ w, fld32 m a = .ok w ∧ s32 w = Tex.signed32 (Tex.word32 m a) :=
  have hb := fun j hj => read_eq_byteAt (h j hj)
  ⟨_, fld32_of_reads (hb 0 (by decide)) (hb 1 (by decide)) (hb 2 (by decide)) (hb 3 (by decide)), field_value m a⟩

theorem fld32_unwritten {m : Memory 8} {a k : Nat} (hk : k < 4) (h : Memory.read m (a + k) = none)
    (hb : ∀ j, j < k → (Memory.read m (a + j)).isSome) : fld32 m a = .error (.unwrittenCell .src (a + k)) := by
  simp only [fld32, memRead_unwritten 4 a k hk h hb]

/-- RDHDR stops at the first byte without value of its two fields: of WIDTH's, or of HEIGHT's when WIDTH's are written. -/
theorem readHeader_unwritten {s : State} {k : Nat} (hk : k < 8) (h : Memory.read s.src (8 + k) = none)
    (hb : ∀ j, j < k → (Memory.read s.src (8 + j)).isSome) :
    readHeader s = .error (.unwrittenCell .src (8 + k)) := by
  rcases Nat.lt_or_ge k 4 with h4 | h4
  · simp only [readHeader, Config.offWidth, fld32_unwritten h4 h hb]
  · obtain ⟨j, rfl⟩ := Nat.exists_eq_add_of_le h4
    obtain ⟨w, hw, -⟩ := fld32_written (a := 8) fun i hi => hb i (by omega)
    rw [← Nat.add_assoc] at h ⊢
    have hh := fld32_unwritten (a := 12) (k := j) (by omega) h fun i hi => by
      have := hb (4 + i) (by omega)
      rwa [← Nat.add_assoc] at this
    simp only [readHeader, Config.offWidth, Config.offHeight, hw, hh]

/-- LDPIX's loop stops at the first packed byte without value. -/
theorem copyPix_unwritten {s : State} {k n : Nat} (hk : k < n) (h : Memory.read s.src (24 + k) = none)
    (hb : ∀ j, j < k → (Memory.read s.src (24 + j)).isSome) :
    forUp copyPixByte n 0 s = .error (.unwrittenCell .src (24 + k)) := by
  refine forUp_stops (fun _ t => t.src = s.src) _ n 0 k s hk rfl (fun j t _ hj ht => ?_) fun t ht => ?_
  · obtain ⟨b, e⟩ := Option.isSome_iff_exists.mp (hb j (by omega))
    rw [← ht] at e
    exact ⟨{ t with pix := Memory.write t.pix j b }, by simp only [copyPixByte, readCell_of_read e], ht⟩
  · rw [← ht] at h
    simp only [copyPixByte, Nat.zero_add, readCell_of_none h]

theorem palWord_completes {m : Memory 8} {l i : Nat} (hl : 32 ≤ l)
    (h : ∀ j, j < 2 → (Memory.read m (l - 32 + 2 * i + j)).isSome) : ∃ p, palWord m l i = .ok p := by
  obtain ⟨v, hv⟩ := memRead_completes (sp := .src) 2 h
  exact ⟨BitVec.ofNat 16 v, by simp only [palWord, Config.palBytes, if_neg (Nat.not_lt.mpr hl), hv]⟩

theorem palWord_unwritten {m : Memory 8} {l i k : Nat} (hl : 32 ≤ l) (hk : k < 2)
    (h : Memory.read m (l - 32 + 2 * i + k) = none)
    (hb : ∀ j, j < k → (Memory.read m (l - 32 + 2 * i + j)).isSome) :
    palWord m l i = .error (.unwrittenCell .src (l - 32 + 2 * i + k)) := by
  simp only [palWord, Config.palBytes, if_neg (Nat.not_lt.mpr hl), memRead_unwritten 2 _ k hk h hb]

/-- LDPAL's loop stops at the first of the last 32 bytes without value: byte k is byte k mod 2 of word k div 2. -/
theorem loadPal_unwritten {s : State} {k : Nat} (hk : k < 32) (hl : 32 ≤ s.srcLen.toNat)
    (h : Memory.read s.src (s.srcLen.toNat - 32 + k) = none)
    (hb : ∀ j, j < k → (Memory.read s.src (s.srcLen.toNat - 32 + j)).isSome) :
    forUp loadPalEntry 16 0 s = .error (.unwrittenCell .src (s.srcLen.toNat - 32 + k)) := by
  have hbyte : s.srcLen.toNat - 32 + 2 * (k / 2) + k % 2 = s.srcLen.toNat - 32 + k := by omega
  refine forUp_stops (fun _ t => t.src = s.src ∧ t.srcLen = s.srcLen) _ 16 0 (k / 2) s (by omega) ⟨rfl, rfl⟩
    (fun i t _ hi ht => ?_) fun t ht => ?_
  · obtain ⟨p, hp⟩ := palWord_completes (m := s.src) (i := i) hl fun j hj => by
      rw [Nat.add_assoc]
      exact hb _ (by omega)
    rw [← ht.1, ← ht.2] at hp
    exact ⟨{ t with pal := t.pal.setIfInBounds i (cvt555 p) }, by simp only [loadPalEntry, hp], ht⟩
  · have hw := palWord_unwritten (i := k / 2) hl (Nat.mod_lt k (by omega)) (hbyte ▸ h) fun j hj => by
      rw [Nat.add_assoc]
      exact hb _ (by omega)
    simp only [loadPalEntry, Nat.zero_add, ht, hw, hbyte]

/-- UNPACK's loop stops at the first packed byte without value. -/
theorem unpackByte_unwritten {s : State} {k n : Nat} (hk : k < n) (h : Memory.read s.pix k = none)
    (hb : ∀ j, j < k → (Memory.read s.pix j).isSome) :
    forUp unpackByte n 0 s = .error (.unwrittenCell .pix k) := by
  refine forUp_stops (fun _ t => t.pix = s.pix) _ n 0 k s hk rfl (fun j t _ hj ht => ?_) fun t ht => ?_
  · obtain ⟨b, e⟩ := Option.isSome_iff_exists.mp (hb j (by omega))
    rw [← ht] at e
    exact ⟨{ t with idx := Memory.write (Memory.write t.idx (2 * j) (unpk b).1) (2 * j + 1) (unpk b).2 },
      by simp only [unpackByte, readCell_of_read e], ht⟩
  · rw [← ht] at h
    simp only [unpackByte, Nat.zero_add, readCell_of_none h]

theorem idxAt_completes (c : Params) {n : Nat} {s : State} (h : n < s.idxLen → (Memory.read s.idx n).isSome) :
    ∃ i, idxAt c n s = .ok i := by
  by_cases hn : n < s.idxLen
  · obtain ⟨i, hi⟩ := Option.isSome_iff_exists.mp (h hn)
    exact ⟨i, by rw [idxAt, if_pos hn, readCell_of_read hi]⟩
  · exact ⟨c.missingIndex, by rw [idxAt, if_neg hn]⟩

theorem idxAt_unwritten (c : Params) {n : Nat} {s : State} (hn : n < s.idxLen) (h : Memory.read s.idx n = none) :
    idxAt c n s = .error (.unwrittenCell .idx n) := by rw [idxAt, if_pos hn, readCell_of_none h]

/-- What EMITPIX looks at is the same in s and t: WIDTH, the palette and the index buffer. -/
def SamePicture (s t : State) : Prop := t.width = s.width ∧ t.pal = s.pal ∧ t.idx = s.idx ∧ t.idxLen = s.idxLen

theorem SamePicture.idxAt_eq {s t : State} (h : SamePicture s t) (c : Params) (n : Nat) : idxAt c n t = idxAt c n s := by
  obtain ⟨-, -, hi, hl⟩ := h
  simp only [idxAt, hi, hl]

/-- EMITPIX's loops stop with the reason of the look-up of row y and column x, when every look-up in the rows below row y,
which are emitted before it, and to the left of column x is answered. -/
theorem emitRows_stop (c : Params) {s : State} {e : Fault} {H y x : Nat} (hy : y < H) (hx : x < loopCount s.width)
    (hstop : idxAt c (flatPixel (loopCount s.width) y x) s = .error e)
    (hbelow : ∀ y' x', y < y' → y' < H → x' < loopCount s.width →
      ∃ i, idxAt c (flatPixel (loopCount s.width) y' x') s = .ok i)
    (hleft : ∀ x', x' < x → ∃ i, idxAt c (flatPixel (loopCount s.width) y x') s = .ok i) :
    forDown (emitRow c) H s = .error e := by
  have pixel : ∀ y' x' t, SamePicture s t → (∃ i, idxAt c (flatPixel (loopCount s.width) y' x') s = .ok i) →
      ∃ u, emitPixel c y' x' t = .ok u ∧ SamePicture s u := by
    rintro y' x' t ht ⟨i, hi⟩
    rw [← ht.1, ← ht.idxAt_eq] at hi
    exact ⟨emitRGB (resolve c i t.pal) t, by simp only [emitPixel, hi], ht⟩
  refine forDown_stops (fun _ t => SamePicture s t) e H y s hy ⟨rfl, rfl, rfl, rfl⟩ (fun y' t h1 h2 ht => ?_)
    fun t ht => ?_
  · rw [emitRow, ht.1]
    exact forUp_completes (fun _ u => SamePicture s u) _ 0 t ht
      fun x' u _ h3 hu => pixel y' x' u hu (hbelow y' x' h1 h2 (by omega))
  · rw [emitRow, ht.1]
    refine forUp_stops (fun _ u => SamePicture s u) e _ 0 x t hx ht
      (fun x' u _ h3 hu => pixel y x' u hu (hleft x' (by omega))) fun u hu => ?_
    simp only [emitPixel, Nat.zero_add, hu.1, hu.idxAt_eq, hstop]

/-- Output pixel W × (H − 1 − y) + x shows column x of row y (R70). -/
theorem shownPixel_of_row {W H x y : Nat} (hx : x < W) (hy : y < H) :
    Tex.shownPixel W H (W * (H - 1 - y) + x) = flatPixel W y x := by
  have hdiv : (W * (H - 1 - y) + x) / W = H - 1 - y := by
    rw [Nat.mul_add_div (by omega), Nat.div_eq_of_lt hx, Nat.add_zero]
  have hmod : (W * (H - 1 - y) + x) % W = x := by rw [Nat.mul_add_mod, Nat.mod_eq_of_lt hx]
  rw [Tex.shownPixel, flatPixel, hdiv, hmod, show H - 1 - (H - 1 - y) = y by omega]

/-- Each output pixel shows a column of a row (R70). -/
theorem exists_row_of_pixel {W H p : Nat} (hp : p < W * H) : ∃ y x, y < H ∧ x < W ∧ p = W * (H - 1 - y) + x := by
  have hW : 0 < W := Nat.pos_of_mul_pos_right (Nat.zero_lt_of_lt hp)
  have hd : p / W < H := Nat.div_lt_of_lt_mul hp
  have hp' := Nat.div_add_mod p W
  generalize p / W = d at hd hp'
  refine ⟨H - 1 - d, p % W, by omega, Nat.mod_lt p hW, ?_⟩
  rw [show H - 1 - (H - 1 - d) = d by omega, hp']

/-- A lower image row is emitted before a higher one (R163). -/
theorem pixel_of_lower_row_lt {W H x x' y y' : Nat} (h : y < y') (hy : y' < H) (hx : x' < W) :
    W * (H - 1 - y') + x' < W * (H - 1 - y) + x :=
  calc W * (H - 1 - y') + x' < W * (H - 1 - y' + 1) := by rw [Nat.mul_succ]; omega
    _ ≤ W * (H - 1 - y) := Nat.mul_le_mul_left W (by omega)
    _ ≤ W * (H - 1 - y) + x := Nat.le_add_right _ _

/-- EMITPIX stops at the first index without value in the order of display. -/
theorem emitRows_unwritten (c : Params) {s : State} {p : Nat} (hp : p < loopCount s.width * loopCount s.height)
    (hlt : Tex.shownPixel (loopCount s.width) (loopCount s.height) p < s.idxLen)
    (h : Memory.read s.idx (Tex.shownPixel (loopCount s.width) (loopCount s.height) p) = none)
    (hb : ∀ q, q < p → Tex.shownPixel (loopCount s.width) (loopCount s.height) q < s.idxLen →
      (Memory.read s.idx (Tex.shownPixel (loopCount s.width) (loopCount s.height) q)).isSome) :
    forDown (emitRow c) (loopCount s.height) s =
      .error (.unwrittenCell .idx (Tex.shownPixel (loopCount s.width) (loopCount s.height) p)) := by
  obtain ⟨y, x, hy, hx, rfl⟩ := exists_row_of_pixel hp
  rw [shownPixel_of_row hx hy] at hlt h ⊢
  refine emitRows_stop c hy hx (idxAt_unwritten c hlt h) (fun y' x' h1 h2 h3 => ?_) fun x' h1 => ?_
  · rw [← shownPixel_of_row h3 h2]
    exact idxAt_completes c (hb _ (pixel_of_lower_row_lt h1 h2 h3))
  · rw [← shownPixel_of_row (Nat.lt_trans h1 hx) hy]
    exact idxAt_completes c (hb _ (Nat.add_lt_add_left h1 _))

/-- Settles O34: each reader's loop stops in the round of the first cell without value; the work before it is dropped. -/
theorem cellWithoutValueStopsTheStep : Obligations.CellWithoutValueStopsTheStep := by
  intro s
  refine ⟨fun k hk h hb => ?_, fun k hk hl h hb => ?_, fun k hk hl h hb => ?_, fun k hk h hb => ?_,
    fun n hn p hp hlt h hb => ?_, fun n hn h => ?_, fun a rest hi hd ha h => ?_⟩
  · rw [exec, execRdhdr, readHeader_unwritten hk h hb, finish]
  · rw [exec, execLdpix, if_neg (Nat.not_lt.mpr hl), copyPix_unwritten hk h hb, finish]
  · have hc : ¬ (Params.hw.overlapCheck = true ∧ regionsOverlap s) := fun ⟨_, ho⟩ => by
      simp only [regionsOverlap, Config.hdrSize, Config.palBytes] at ho
      omega
    rw [exec, execLdpal, ldpalWith, if_neg hc, loadPal_unwritten hk (by omega) h hb, finish]
  · rw [exec, execUnpack, unpackAll, unpackByte_unwritten hk h hb]
    rfl
  · obtain rfl : n = Tex.shownPixel (loopCount s.width) (loopCount s.height) := funext hn
    rw [exec, execEmitpix, emitpixWith, emitRows_unwritten Params.hw hp hlt h hb, finish]
  · simp only [exec, execIdxat, idxAt_unwritten Params.hw hn h]
  · have ho : doneFlag (withInputs s rest) = true ∧ a < (withInputs s rest).outLen := ⟨(doneFlag_iff s).mpr hd, ha⟩
    have hr : Memory.read (withInputs s rest).out a = none := h
    rw [step_readOut s a rest hi, readOut, if_pos ho, readCell_of_none hr]

end Sys2Proof.Machine

namespace Sys2Proof.Machine

/-! The core's turn in a run: the check of its operation raises (R200 to R204), or PHASE advances and everything the
operation does not write stays. -/

/-- The operation in PHASE raises e: its check fails (R140, R142, R144, R145, R165). -/
inductive Raises (s : State) : ErrCode → Prop
  | chklen (hp : s.phase = .chklen) (h : s.srcLen.toNat < 32) : Raises s .truncatedPalette
  | chkdim (hp : s.phase = .chkdim) (h : ¬ LegalDimensions s) : Raises s .invalidDimensions
  | ldpix (hp : s.phase = .ldpix) (h : s.srcLen.toNat < 24 + s.dataSize) : Raises s .truncatedData
  | ldpal (hp : s.phase = .ldpal) (h : s.srcLen.toNat < 56 + s.dataSize) : Raises s .truncatedPalette
  | commit (hp : s.phase = .commit) (h : s.sinkOk = false) : Raises s .writeError

/-- What the core's turn leaves when its operation raises nothing: PHASE is the next one, and only the registers and the
memory that the operation writes may differ. -/
structure Advances (s t : State) : Prop where
  num : phaseNum t = phaseNum s + 1
  errCode : t.errCode = s.errCode
  src : t.src = s.src
  srcLen : t.srcLen = s.srcLen
  /-- RDHDR writes the header registers. -/
  header : phaseNum s ≠ 2 → t.hdrValid = s.hdrValid ∧ t.width = s.width ∧ t.height = s.height
  /-- SIZE writes the sizes. -/
  sizes : phaseNum s ≠ 4 → t.npix = s.npix ∧ t.dataSize = s.dataSize
  /-- LDPIX writes PIX. -/
  pix : phaseNum s ≠ 5 → t.pix = s.pix
  /-- LDPAL writes PAL. -/
  pal : phaseNum s ≠ 6 → t.pal = s.pal
  /-- UNPACK writes IDX and IDX_LEN. -/
  idx : phaseNum s ≠ 7 → t.idx = s.idx ∧ t.idxLen = s.idxLen
  /-- EMITHDR and EMITPIX write OUT and OUT_LEN. -/
  out : phaseNum s ≠ 8 → phaseNum s ≠ 9 → t.out = s.out ∧ t.outLen = s.outLen

theorem phaseNum_eq_iff (s : State) (p : Phase) : phaseNum s = p.code.toNat ↔ s.phase = p := by
  refine ⟨fun h => ?_, fun h => congrArg (fun q : Phase => q.code.toNat) h⟩
  have hc : s.phase.code = p.code := BitVec.eq_of_toNat_eq h
  exact Option.some.inj (((Phase.ofCode_eq_some_iff _ _).mpr hc).symm.trans ((Phase.ofCode_eq_some_iff _ _).mpr rfl))

/-- The core's turn as the turn of the phase whose number PHASE has. -/
theorem exec_at {s : State} {o : Host.Outcome State Fault Refusal} (p : Phase)
    (h : exec (Phase.operation s.phase) s = o) (hn : phaseNum s = p.code.toNat) : exec (Phase.operation p) s = o := by
  rwa [(phaseNum_eq_iff s p).mp hn] at h

/-- BUSY = 1 by the code of PHASE (R25). -/
theorem busy_num (s : State) : ¬ Halted s ↔ 1 ≤ phaseNum s ∧ phaseNum s ≤ 10 := by
  rw [halted_num]
  omega

/-- A failing check raises (R210). -/
theorem exec_of_raises {s : State} {e : ErrCode} (h : Raises s e) :
    exec (Phase.operation s.phase) s = .next (raise e s) := by
  cases h with
  | chklen hp h => rw [hp]; exact if_pos h
  | chkdim hp h =>
    rw [hp]
    refine if_pos ?_
    simp only [LegalDimensions, LegalDimension] at h
    simp only [Config.maxDim]
    omega
  | ldpix hp h => rw [hp]; exact if_pos h
  | ldpal hp h => rw [hp]; exact if_pos ⟨rfl, by simp only [regionsOverlap, Config.hdrSize, Config.palBytes]; omega⟩
  | commit hp h => rw [hp]; exact if_neg (by simp [h])

/-- A turn that moves PHASE alone, to the next phase. -/
theorem advances_goto {s : State} {p : Phase} (h : p.code.toNat = phaseNum s + 1) : Advances s (goto p s) where
  num := h
  errCode := rfl
  src := rfl
  srcLen := rfl
  header _ := ⟨rfl, rfl, rfl⟩
  sizes _ := ⟨rfl, rfl⟩
  pix _ := rfl
  pal _ := rfl
  idx _ := ⟨rfl, rfl⟩
  out _ _ := ⟨rfl, rfl⟩

/-- Without a failing check a turn of the core in a run advances (R181). -/
theorem exec_advances {s t : State} (hb : ¬ Halted s) (hn : ∀ e, ¬ Raises s e)
    (h : exec (Phase.operation s.phase) s = .next t) : Advances s t := by
  have hnum : ∀ p, s.phase = p → phaseNum s = p.code.toNat := fun p => (phaseNum_eq_iff s p).mpr
  cases hp : s.phase <;> rw [hp] at h <;> replace hnum := hnum _ hp
  case idle => exact absurd (.inl hp) hb
  case done => exact absurd (.inr (.inl hp)) hb
  case fail => exact absurd (.inr (.inr hp)) hb
  case chklen =>
    rcases execChklen_next s t h with ⟨hr, -⟩ | ⟨-, rfl⟩
    · exact absurd (.chklen hp hr) (hn _)
    · exact advances_goto (by rw [hnum]; rfl)
  case rdhdr =>
    rw [execRdhdr_next s t h]
    exact { advances_goto (p := .chkdim) (by rw [hnum]; rfl) with header := fun c => absurd hnum c }
  case chkdim =>
    rcases execChkdim_next s t h with ⟨hr, -⟩ | ⟨-, rfl⟩
    · exact absurd (.chkdim hp hr) (hn _)
    · exact advances_goto (by rw [hnum]; rfl)
  case size =>
    rw [execSize_next s t h]
    exact { advances_goto (p := .ldpix) (by rw [hnum]; rfl) with sizes := fun c => absurd hnum c }
  case ldpix =>
    rcases execLdpix_next s t h with ⟨hr, -⟩ | ⟨-, u, hu, rfl⟩
    · exact absurd (.ldpix hp hr) (hn _)
    · rw [(copyPix_keeps _ _ _ _ hu).1]
      exact { advances_goto (p := .ldpal) (by rw [hnum]; rfl) with pix := fun c => absurd hnum c }
  case ldpal =>
    rcases execLdpal_next s t h with ⟨hr, -⟩ | ⟨-, u, hu, rfl⟩
    · exact absurd (.ldpal hp hr) (hn _)
    · rw [loadPal_keeps _ _ _ _ hu]
      exact { advances_goto (p := .unpack) (by rw [hnum]; rfl) with pal := fun c => absurd hnum c }
  case unpack =>
    obtain ⟨u, hu, rfl⟩ := execUnpack_next s t h
    rw [(unpackByte_keeps _ _ _ _ hu).1]
    exact { advances_goto (s := s) (p := .emithdr) (by rw [hnum]; rfl) with idx := fun c => absurd hnum c }
  case emithdr =>
    obtain ⟨m, e, -⟩ := emitHeader_spec Params.hw s
    rw [execEmithdr_next s t h, e]
    exact { advances_goto (p := .emitpix) (by rw [hnum]; rfl) with out := fun c _ => absurd hnum c }
  case emitpix =>
    obtain ⟨u, hu, rfl⟩ := execEmitpix_next s t h
    rw [(emitRows_keeps _ _ _ _ hu).1]
    exact { advances_goto (p := .commit) (by rw [hnum]; rfl) with out := fun _ c => absurd hnum c }
  case commit =>
    rcases execCommit_next s t h with ⟨-, rfl⟩ | ⟨hr, -⟩
    · exact advances_goto (by rw [hnum]; rfl)
    · exact absurd (.commit hp hr) (hn _)

end Sys2Proof.Machine

namespace Sys2Proof.Machine

/-! What each operation writes, in the words of the phase invariant. -/

/-- SIZE on legal dimensions writes their product and its half (R143). -/
theorem execSize_writes {s t : State} (hd : LegalDimensions s) (h : execSize s = .next t) :
    (t.npix : Int) = s32 t.width * s32 t.height ∧ t.dataSize = t.npix / 2 ∧ t.npix ≤ 16777216 := by
  obtain ⟨hn, -, hle⟩ := pixelCount_legal s.width s.height hd.1 hd.2
  rw [execSize_next s t h]
  exact ⟨hn, rfl, hle⟩

/-- LDPIX, when it ends, has copied the packed bytes (R144). -/
theorem execLdpix_writes {s t : State} (hl : 24 + s.dataSize ≤ s.srcLen.toNat) (h : execLdpix s = .next t) :
    ∀ k, k < s.dataSize → ∃ b, Memory.read s.src (24 + k) = some b ∧ Memory.read t.pix k = some b := by
  intro k hk
  rcases execLdpix_next s t h with ⟨hr, -⟩ | ⟨-, u, hu, rfl⟩
  · omega
  · have hw : ∀ k, k < s.dataSize → (Memory.read s.src (24 + k)).isSome :=
      fun k hk => copyPix_reads _ _ _ _ hu k (Nat.zero_le k) (by omega)
    obtain ⟨m, hm, hcopy, -⟩ := copyPix_loop s hw
    obtain ⟨b, hb⟩ := Option.isSome_iff_exists.mp (hw k hk)
    obtain rfl : { s with pix := m } = u := Except.ok.inj (hm.symm.trans hu)
    exact ⟨b, hb, (hcopy k hk).trans hb⟩

/-- LDPAL, when it ends, has decoded the palette words (R145). -/
theorem execLdpal_writes {s t : State} (hl : 56 + s.dataSize ≤ s.srcLen.toNat) (h : execLdpal s = .next t) :
    ∀ i (hi : i < 16), ∃ b0 b1, Memory.read s.src (s.srcLen.toNat - 32 + 2 * i) = some b0 ∧
      Memory.read s.src (s.srcLen.toNat - 31 + 2 * i) = some b1 ∧
      t.pal[i] = cvt555 (BitVec.ofNat 16 (b0.toNat + 256 * b1.toNat)) := by
  intro i hi
  rcases execLdpal_next s t h with ⟨hr, -⟩ | ⟨-, u, hu, rfl⟩
  · omega
  · have hw : ∀ j, j < 32 → ∃ b, Memory.read s.src (s.srcLen.toNat - 32 + j) = some b := fun j hj => by
      obtain ⟨h0, h1⟩ := loadPal_reads _ _ _ _ hu (j / 2) (Nat.zero_le _) (by omega)
      rcases Nat.mod_two_eq_zero_or_one j with hm | hm
      · rw [show 2 * (j / 2) = j by omega] at h0
        exact Option.isSome_iff_exists.mp h0
      · rw [show s.srcLen.toNat - 32 + 2 * (j / 2) + 1 = s.srcLen.toNat - 32 + j by omega] at h1
        exact Option.isSome_iff_exists.mp h1
    choose! b hb using hw
    obtain ⟨pal, hp, hpal⟩ := loadPal_loop s b (by omega) hb
    obtain rfl : { s with pal := pal } = u := Except.ok.inj (hp.symm.trans hu)
    refine ⟨b (2 * i), b (2 * i + 1), hb _ (by omega), ?_, ?_⟩
    · rw [show s.srcLen.toNat - 31 + 2 * i = s.srcLen.toNat - 32 + (2 * i + 1) by omega]
      exact hb _ (by omega)
    · rw [word_of_two]
      exact hpal i hi

/-- UNPACK on written bytes writes both nibbles of each, and IDX_LEN (R147). -/
theorem execUnpack_writes {s t : State} (hw : ∀ k, k < s.dataSize → (Memory.read s.pix k).isSome)
    (h : execUnpack s = .next t) : t.idxLen = 2 * s.dataSize ∧
      ∀ k b, k < s.dataSize → Memory.read s.pix k = some b →
        Memory.read t.idx (2 * k) = some (lo b) ∧ Memory.read t.idx (2 * k + 1) = some (hi b) := by
  obtain ⟨u, hu, rfl⟩ := execUnpack_next s t h
  obtain ⟨m, hm, hidx, -⟩ := unpackByte_loop s hw
  obtain rfl : { s with idx := m } = u := Except.ok.inj (hm.symm.trans hu)
  exact ⟨rfl, hidx⟩

@[simp] theorem headerOf_length (size w h : Nat) : (Tex.headerOf size w h).length = 54 := by
  simp [Tex.headerOf, Tex.le4, Tex.le2]

/-- EMITHDR appends the header's bytes to OUT (R160). -/
theorem execEmithdr_writes {s t : State} (h : execEmithdr s = .next t) : t.outLen = s.outLen + 54 ∧
    ∀ a, a < 54 → Memory.read t.out (s.outLen + a) =
      (Tex.headerOf (54 + 3 * s.npix) s.width.toNat s.height.toNat)[a]? := by
  obtain ⟨m, e, hm, -⟩ := emitHeader_spec Params.hw s
  rw [execEmithdr_next s t h, e]
  exact ⟨rfl, headerList_hw s ▸ hm⟩

/-- The index IDXAT gives for flat pixel n, where every element of IDX below IDX_LEN is written (R161). -/
def indexOf (s : State) (n : Nat) : Index := if n < s.idxLen then (Memory.read s.idx n).getD 0 else 0

/-- The colour EMITPIX gives output pixel p (R162, R163). -/
def shownColour (s : State) (p : Nat) : RGB :=
  resolve Params.hw (indexOf s (Tex.shownPixel (loopCount s.width) (loopCount s.height) p)) s.pal

/-- IDXAT over a written index buffer. -/
theorem idxAt_indexOf {s : State} {n : Nat} (hw : n < s.idxLen → (Memory.read s.idx n).isSome) :
    idxAt Params.hw n s = .ok (indexOf s n) := by
  by_cases hn : n < s.idxLen
  · obtain ⟨i, hi⟩ := Option.isSome_iff_exists.mp (hw hn)
    rw [idxAt, indexOf, if_pos hn, if_pos hn, readCell_of_read hi, hi, Option.getD_some]
  · rw [idxAt, indexOf, if_neg hn, if_neg hn]
    rfl

/-- EMITPIX over a written index buffer ends, with the pixels appended to OUT (R163). -/
theorem execEmitpix_appends {s : State} (hw : ∀ n, n < s.idxLen → (Memory.read s.idx n).isSome) :
    ∃ u, execEmitpix s = .next (goto .commit u) ∧
      PixelsAppended s (shownColour s) (loopCount s.width * loopCount s.height) u := by
  obtain ⟨u, hu, hp⟩ := emitPixels_loop Params.hw s (shownColour s) fun p _ => ⟨_, idxAt_indexOf (hw _), rfl⟩
  exact ⟨u, by simp only [execEmitpix, emitpixWith, hu, finish], hp⟩

/-! The phase invariant under the core's turn (R148, R183, R233). -/

/-- From LDPIX to DONE the number of pixels is the number of rounds of EMITPIX's loops. -/
theorem RunInv.npix_eq {s : State} (hi : RunInv s) (h5 : 5 ≤ phaseNum s) (h11 : phaseNum s ≤ 11) :
    s.npix = loopCount s.width * loopCount s.height := by
  obtain ⟨⟨hw, -⟩, ⟨hh, -⟩⟩ := hi.dims (by omega) h11
  have hn := (hi.sizes h5 h11).1
  rw [← Int.toNat_of_nonneg (show 0 ≤ s32 s.width by omega),
    ← Int.toNat_of_nonneg (show 0 ≤ s32 s.height by omega)] at hn
  exact_mod_cast hn

/-- Every element of IDX below IDX_LEN is written from EMITHDR to COMMIT. -/
theorem RunInv.idx_written {s : State} (hi : RunInv s) (h8 : 8 ≤ phaseNum s) (h10 : phaseNum s ≤ 10) :
    ∀ n, n < s.idxLen → (Memory.read s.idx n).isSome := by
  intro n hn
  rw [hi.idxLenSet h8 (by omega)] at hn
  obtain ⟨b, -, h0, h1⟩ := hi.indices h8 h10 (n / 2) (by omega)
  rcases Nat.mod_two_eq_zero_or_one n with hm | hm
  · rw [show 2 * (n / 2) = n by omega] at h0
    rw [h0]
    rfl
  · rw [show 2 * (n / 2) + 1 = n by omega] at h1
    rw [h1]
    rfl

/-- Every packed byte is in PIX from LDPAL to COMMIT. -/
theorem RunInv.pix_written {s : State} (hi : RunInv s) (h6 : 6 ≤ phaseNum s) (h10 : phaseNum s ≤ 10) :
    ∀ k, k < s.dataSize → (Memory.read s.pix k).isSome := by
  intro k hk
  obtain ⟨b, -, hb⟩ := hi.pixels h6 h10 k hk
  rw [hb]
  rfl

/-- EMITPIX's turn in a run appends the pixels after the 54 bytes of the header. -/
theorem RunInv.emitpix_appends {s t : State} (hi : RunInv s) (hp : phaseNum s = 9)
    (h : exec (Phase.operation s.phase) s = .next t) :
    t.outLen = 54 + 3 * s.npix ∧ (∀ a, a < 54 → Memory.read t.out a = Memory.read s.out a) ∧
      ∀ p, p < s.npix → Memory.read t.out (54 + 3 * p) = some (shownColour s p).r ∧
        Memory.read t.out (54 + 3 * p + 1) = some (shownColour s p).g ∧
        Memory.read t.out (54 + 3 * p + 2) = some (shownColour s p).b := by
  obtain ⟨u, hu, m, rfl, hpix, hold⟩ := execEmitpix_appends (hi.idx_written (by omega) (by omega))
  have hl : s.outLen = 54 := hi.outLenHeader ((phaseNum_eq_iff s .emitpix).mp hp)
  obtain rfl := Host.Outcome.next.inj (hu.symm.trans (exec_at .emitpix h hp))
  rw [hl, ← hi.npix_eq (by omega) (by omega)] at hpix hold ⊢
  exact ⟨rfl, fun a ha => hold a (.inl ha), hpix⟩

/-- A register's width holds after a turn of the core that raises nothing (R20). -/
theorem Advances.fits {s t : State} (a : Advances s t) (hi : RunInv s) (hb : ¬ Halted s)
    (h : exec (Phase.operation s.phase) s = .next t) : RegistersFit t := by
  obtain ⟨h1, h10⟩ := (busy_num s).mp hb
  obtain ⟨hnpix, hdata, hidx, hout⟩ := hi.fits
  have hsizes : t.npix < 2 ^ 25 ∧ t.dataSize < 2 ^ 24 := by
    by_cases h4 : phaseNum s = 4
    · obtain ⟨-, hd, hle⟩ := execSize_writes (hi.dims (by omega) (by omega)) (exec_at .size h h4)
      omega
    · obtain ⟨en, ed⟩ := a.sizes h4
      omega
  refine ⟨hsizes.1, hsizes.2, ?_, ?_⟩
  · by_cases h7 : phaseNum s = 7
    · obtain ⟨hl, -⟩ := execUnpack_writes (hi.pix_written (by omega) (by omega)) (exec_at .unpack h h7)
      omega
    · rw [(a.idx h7).2]
      exact hidx
  · by_cases h8 : phaseNum s = 8
    · have h0 := hi.outLenZero (.inl (by omega))
      obtain ⟨hl, -⟩ := execEmithdr_writes (exec_at .emithdr h h8)
      omega
    · by_cases h9 : phaseNum s = 9
      · obtain ⟨hl, -⟩ := hi.emitpix_appends h9 h
        omega
      · rw [(a.out h8 h9).2]
        exact hout

/-- Every byte of OUT below OUT_LEN is written after a turn of the core that raises nothing (R38). -/
theorem Advances.outWritten {s t : State} (a : Advances s t) (hi : RunInv s) (hb : ¬ Halted s)
    (h : exec (Phase.operation s.phase) s = .next t) : ∀ b, b < t.outLen → (Memory.read t.out b).isSome := by
  obtain ⟨h1, h10⟩ := (busy_num s).mp hb
  intro b hlt
  by_cases h8 : phaseNum s = 8
  · have h0 := hi.outLenZero (.inl (by omega))
    obtain ⟨hl, hw⟩ := execEmithdr_writes (exec_at .emithdr h h8)
    have e := hw b (by omega)
    rw [h0, Nat.zero_add] at e
    rw [e]
    simp only [isSome_getElem?, headerOf_length]
    omega
  · by_cases h9 : phaseNum s = 9
    · obtain ⟨hl, hold, hw⟩ := hi.emitpix_appends h9 h
      rcases Nat.lt_or_ge b 54 with hlo | hhi
      · rw [hold b hlo]
        exact hi.outWritten b (by rw [hi.outLenHeader ((phaseNum_eq_iff s .emitpix).mp h9)]; exact hlo)
      · obtain ⟨p, hp, hb⟩ : ∃ p, p < s.npix ∧ (b = 54 + 3 * p ∨ b = 54 + 3 * p + 1 ∨ b = 54 + 3 * p + 2) :=
          ⟨(b - 54) / 3, by omega, by omega⟩
        obtain ⟨hr, hg, hbl⟩ := hw p hp
        rcases hb with rfl | rfl | rfl
        · rw [hr]
          rfl
        · rw [hg]
          rfl
        · rw [hbl]
          rfl
    · obtain ⟨eo, el⟩ := a.out h8 h9
      rw [eo]
      exact hi.outWritten b (el ▸ hlt)

/-- A turn of the core that raises nothing keeps the phase invariant: each line is what the operation in PHASE writes, or
stands since before and is not written. -/
theorem RunInv.advance {s t : State} (hi : RunInv s) (hb : ¬ Halted s) (hn : ∀ e, ¬ Raises s e)
    (h : exec (Phase.operation s.phase) s = .next t) : RunInv t := by
  have a := exec_advances hb hn h
  have num := a.num
  obtain ⟨h1, h10⟩ := (busy_num s).mp hb
  have hat := fun (u : State) (p : Phase) => phaseNum_eq_iff u p
  have hfail : ∀ u : State, phaseNum u ≤ 11 → u.phase ≠ .fail := fun u hu e => by
    rw [(hat u .fail).mpr e] at hu
    exact absurd hu (by decide)
  constructor
  case error => exact ⟨fun _ => hfail t (by omega), fun _ => a.errCode.trans (hi.error.mpr (hfail s (by omega)))⟩
  case headerNotRead => exact fun h2 => (a.header (by omega)).1.trans (hi.headerNotRead (by omega))
  case headerRead =>
    intro h3 _
    by_cases h2 : phaseNum s = 2
    · rw [execRdhdr_next s t (exec_at .rdhdr h h2)]
      rfl
    · exact (a.header h2).1.trans (hi.headerRead (by omega) (by omega))
  case headerFail => exact fun e => absurd e (hfail t (by omega))
  case dims =>
    intro h4 _
    obtain ⟨-, ew, eh⟩ := a.header (by omega)
    rw [LegalDimensions, ew, eh]
    by_cases h3 : phaseNum s = 3
    · exact not_not.mp fun hd => hn _ (.chkdim ((hat s .chkdim).mp h3) hd)
    · exact hi.dims (by omega) (by omega)
  case sizes =>
    intro h5 _
    by_cases h4 : phaseNum s = 4
    · obtain ⟨hnpix, hdata, -⟩ := execSize_writes (hi.dims (by omega) (by omega)) (exec_at .size h h4)
      exact ⟨hnpix, hdata⟩
    · obtain ⟨-, ew, eh⟩ := a.header (by omega)
      obtain ⟨en, ed⟩ := a.sizes h4
      rw [en, ed, ew, eh]
      exact hi.sizes (by omega) (by omega)
  case idxLenZero => exact fun h7 => (a.idx (by omega)).2.trans (hi.idxLenZero (by omega))
  case idxLenSet =>
    intro h8 _
    rw [(a.sizes (by omega)).2]
    by_cases h7 : phaseNum s = 7
    · exact (execUnpack_writes (hi.pix_written (by omega) (by omega)) (exec_at .unpack h h7)).1
    · exact (a.idx h7).2.trans (hi.idxLenSet (by omega) (by omega))
  case outLenZero =>
    rintro (h8 | e)
    · exact (a.out (by omega) (by omega)).2.trans (hi.outLenZero (.inl (by omega)))
    · exact absurd e (hfail t (by omega))
  case outLenHeader =>
    intro e
    have h8 : phaseNum s = 8 := Nat.succ.inj (num.symm.trans ((hat t .emitpix).mpr e))
    rw [(execEmithdr_writes (exec_at .emithdr h h8)).1, hi.outLenZero (.inl (by omega))]
  case outLenAll =>
    rintro (e | e)
    · have h9 : phaseNum s = 9 := Nat.succ.inj (num.symm.trans ((hat t .commit).mpr e))
      rw [(a.sizes (by omega)).1]
      exact (hi.emitpix_appends h9 h).1
    · have h10 : phaseNum s = 10 := Nat.succ.inj (num.symm.trans ((hat t .done).mpr e))
      rw [(a.sizes (by omega)).1, (a.out (by omega) (by omega)).2]
      exact hi.outLenAll (.inl ((hat s .commit).mp h10))
  case lenHeader =>
    intro _ _
    rw [a.srcLen]
    by_cases h1 : phaseNum s = 1
    · exact not_lt.mp fun hl => hn _ (.chklen ((hat s .chklen).mp h1) hl)
    · exact hi.lenHeader (by omega) (by omega)
  case lenPixels =>
    intro _ _
    rw [a.srcLen, (a.sizes (by omega)).2]
    by_cases h5 : phaseNum s = 5
    · exact not_lt.mp fun hl => hn _ (.ldpix ((hat s .ldpix).mp h5) hl)
    · exact hi.lenPixels (by omega) (by omega)
  case lenPalette =>
    intro _ _
    rw [a.srcLen, (a.sizes (by omega)).2]
    by_cases h6 : phaseNum s = 6
    · exact not_lt.mp fun hl => hn _ (.ldpal ((hat s .ldpal).mp h6) hl)
    · exact hi.lenPalette (by omega) (by omega)
  case pixels =>
    intro _ _
    rw [a.src, (a.sizes (by omega)).2]
    by_cases h5 : phaseNum s = 5
    · exact execLdpix_writes (not_lt.mp fun hl => hn _ (.ldpix ((hat s .ldpix).mp h5) hl)) (exec_at .ldpix h h5)
    · rw [a.pix h5]
      exact hi.pixels (by omega) (by omega)
  case palette =>
    intro _ _
    rw [a.src, a.srcLen]
    by_cases h6 : phaseNum s = 6
    · exact execLdpal_writes (not_lt.mp fun hl => hn _ (.ldpal ((hat s .ldpal).mp h6) hl)) (exec_at .ldpal h h6)
    · rw [a.pal h6]
      exact hi.palette (by omega) (by omega)
  case indices =>
    intro _ _ k hk
    rw [(a.sizes (by omega)).2] at hk
    rw [a.src]
    by_cases h7 : phaseNum s = 7
    · obtain ⟨b, hs, hp⟩ := hi.pixels (by omega) (by omega) k hk
      exact ⟨b, hs, (execUnpack_writes (hi.pix_written (by omega) (by omega)) (exec_at .unpack h h7)).2 k b hk hp⟩
    · rw [(a.idx h7).1]
      exact hi.indices (by omega) (by omega) k hk
  case outWritten => exact a.outWritten hi hb h
  case fits => exact a.fits hi hb h

end Sys2Proof.Machine

namespace Sys2Proof.Machine

/-! A run against the formulas over the bytes of its stream (namespace Tex). -/

/-- RDHDR's work over a loaded stream (R141). -/
theorem readHeader_loaded {s : State} (hl : SrcLoaded s) (h32 : 32 ≤ s.srcLen.toNat) :
    ∃ w h, readHeader s = .ok { s with width := w, height := h, hdrValid := true } ∧
      s32 w = Tex.width s.src ∧ s32 h = Tex.height s.src := by
  obtain ⟨w, hw, ew⟩ := fld32_written (m := s.src) (a := 8) fun j hj => hl h32 _ (by omega)
  obtain ⟨h, hh, eh⟩ := fld32_written (m := s.src) (a := 12) fun j hj => hl h32 _ (by omega)
  exact ⟨w, h, by simp only [readHeader, Config.offWidth, Config.offHeight, hw, hh], ew, eh⟩

/-- Under the launch premises the core's turn has a next state (R233): a check answers either way, and a loop meets
written cells alone. -/
theorem RunInv.exec_completes {s : State} (hi : RunInv s) (hl : SrcLoaded s) :
    ∃ t, exec (Phase.operation s.phase) s = .next t := by
  have hnum : ∀ p, s.phase = p → phaseNum s = p.code.toNat := fun p => (phaseNum_eq_iff s p).mpr
  cases hp : s.phase <;> replace hnum : phaseNum s = _ := hnum _ hp <;> simp only [Phase.operation, exec]
  case idle | done | fail => exact ⟨s, rfl⟩
  case size | emithdr => exact ⟨_, rfl⟩
  case chklen => rw [execChklen]; split <;> exact ⟨_, rfl⟩
  case chkdim => rw [execChkdim]; split <;> exact ⟨_, rfl⟩
  case commit => rw [execCommit]; split <;> exact ⟨_, rfl⟩
  case rdhdr =>
    have h32 := hi.lenHeader (by rw [hnum]; decide) (by rw [hnum]; decide)
    obtain ⟨w, h, e, -⟩ := readHeader_loaded hl h32
    rw [execRdhdr, e]
    exact ⟨_, rfl⟩
  case ldpix =>
    have h32 := hi.lenHeader (by rw [hnum]; decide) (by rw [hnum]; decide)
    rw [execLdpix]
    split
    · exact ⟨_, rfl⟩
    next hc =>
      simp only [Config.hdrSize] at hc
      obtain ⟨m, e, -⟩ := copyPix_loop s fun k hk => hl h32 _ (by omega)
      rw [e]
      exact ⟨_, rfl⟩
  case ldpal =>
    have h32 := hi.lenHeader (by rw [hnum]; decide) (by rw [hnum]; decide)
    rw [execLdpal, ldpalWith]
    split
    · exact ⟨_, rfl⟩
    next =>
      obtain ⟨pal, e, -⟩ := loadPal_loop s (fun j => BitVec.ofNat 8 (Tex.byteAt s.src (s.srcLen.toNat - 32 + j))) h32
        fun j hj => read_of_loaded hl h32 (by omega)
      rw [Config.palEntries, e]
      exact ⟨_, rfl⟩
  case unpack =>
    obtain ⟨m, e, -⟩ := unpackByte_loop s (hi.pix_written (by rw [hnum]; decide) (by rw [hnum]; decide))
    rw [execUnpack, unpackAll, e]
    exact ⟨_, rfl⟩
  case emitpix =>
    obtain ⟨u, e, -⟩ := execEmitpix_appends (hi.idx_written (by rw [hnum]; decide) (by rw [hnum]; decide))
    exact ⟨_, e⟩

/-- A state of a run whose registers and output are what the formulas give of the stream so far. -/
structure Tracks (s : State) : Prop where
  inv : RunInv s
  loaded : SrcLoaded s
  /-- RDHDR has read the fields (R141). -/
  header : 3 ≤ phaseNum s → phaseNum s ≤ 11 → s32 s.width = Tex.width s.src ∧ s32 s.height = Tex.height s.src
  /-- EMITHDR has emitted the header (R160). -/
  outHeader : 9 ≤ phaseNum s → phaseNum s ≤ 11 → ∀ a, a < 54 →
    Memory.read s.out a = (Tex.headerBytes (Tex.width s.src).toNat (Tex.height s.src).toNat)[a]?
  /-- EMITPIX has emitted the pixels (R70, R163). -/
  outPixels : 10 ≤ phaseNum s → phaseNum s ≤ 11 → ∀ p, p < Tex.npix s.src →
    Memory.read s.out (54 + 3 * p) = some (Tex.pixelAt s.src s.srcLen.toNat p).r ∧
    Memory.read s.out (55 + 3 * p) = some (Tex.pixelAt s.src s.srcLen.toNat p).g ∧
    Memory.read s.out (56 + 3 * p) = some (Tex.pixelAt s.src s.srcLen.toNat p).b

section
variable {s : State}

theorem Tracks.legalHeader_iff (h : Tracks s) (h3 : 3 ≤ phaseNum s) (h11 : phaseNum s ≤ 11) :
    LegalDimensions s ↔ Tex.LegalHeader s.src := by
  obtain ⟨hw, hh⟩ := h.header h3 h11
  rw [LegalDimensions, LegalDimension, LegalDimension, hw, hh, Tex.LegalHeader]

theorem Tracks.legalHeader (h : Tracks s) (h4 : 4 ≤ phaseNum s) (h11 : phaseNum s ≤ 11) : Tex.LegalHeader s.src :=
  (h.legalHeader_iff (by omega) h11).mp (h.inv.dims h4 h11)

/-- From LDPIX to DONE the sizes are the formulas' (R143). -/
theorem Tracks.sizes (h : Tracks s) (h5 : 5 ≤ phaseNum s) (h11 : phaseNum s ≤ 11) :
    s.npix = Tex.npix s.src ∧ s.dataSize = Tex.dataSize s.src := by
  obtain ⟨hn, hd⟩ := h.inv.sizes h5 h11
  obtain ⟨hw, hh⟩ := h.header (by omega) h11
  have hnpix : s.npix = Tex.npix s.src := by rw [Tex.npix, ← hw, ← hh, ← hn, Int.toNat_natCast]
  exact ⟨hnpix, by rw [hd, hnpix, Tex.dataSize]⟩

/-- The loop counts of EMITPIX are the dimensions of the formulas (R163). -/
theorem Tracks.loopCounts (h : Tracks s) (h3 : 3 ≤ phaseNum s) (h11 : phaseNum s ≤ 11) :
    loopCount s.width = (Tex.width s.src).toNat ∧ loopCount s.height = (Tex.height s.src).toNat := by
  obtain ⟨hw, hh⟩ := h.header h3 h11
  rw [loopCount, loopCount, hw, hh]
  exact ⟨rfl, rfl⟩

/-- What EMITHDR emits is the header of the formulas (R96). -/
theorem Tracks.header_eq (h : Tracks s) (hp : phaseNum s = 8) :
    Tex.headerOf (54 + 3 * s.npix) s.width.toNat s.height.toNat =
      Tex.headerBytes (Tex.width s.src).toNat (Tex.height s.src).toNat := by
  obtain ⟨⟨hw, -⟩, ⟨hh, -⟩⟩ := h.inv.dims (by omega) (by omega)
  obtain ⟨ew, eh⟩ := h.loopCounts (by omega) (by omega)
  rw [Tex.headerBytes, ← ew, ← eh, ← h.inv.npix_eq (by omega) (by omega), loopCount, loopCount,
    toNat_of_nonneg _ (zero_le_one.trans hw), toNat_of_nonneg _ (zero_le_one.trans hh)]

/-- What EMITPIX emits is the pixel of the formulas (R70, R148, R162). -/
theorem Tracks.shownColour_eq (h : Tracks s) (hp : phaseNum s = 9) (p : Nat) :
    shownColour s p = Tex.pixelAt s.src s.srcLen.toNat p := by
  obtain ⟨ew, eh⟩ := h.loopCounts (by omega) (by omega)
  have hil := h.inv.idxLenSet (by omega) (by omega)
  have hds := (h.sizes (by omega) (by omega)).2
  have hidx := index_eq (h.inv.indices (by omega) (by omega)) hil hds
  have hcol := colour_eq (h.inv.palette (by omega) (by omega))
  rw [Tex.pixelAt, ← ew, ← eh, ← hidx, ← hcol]
  rfl

end

/-- The core's turn, when it raises nothing, keeps up with the formulas. -/
theorem Tracks.advance {s t : State} (k : Tracks s) (hb : ¬ Halted s) (hn : ∀ e, ¬ Raises s e)
    (h : exec (Phase.operation s.phase) s = .next t) : Tracks t := by
  have a := exec_advances hb hn h
  have num := a.num
  obtain ⟨h1, h10⟩ := (busy_num s).mp hb
  have loaded : SrcLoaded t := by rw [SrcLoaded, a.src, a.srcLen]; exact k.loaded
  refine ⟨k.inv.advance hb hn h, loaded, fun h3 _ => ?_, fun h9 _ b hlt => ?_, fun _ _ p hlt => ?_⟩
  · rw [a.src]
    by_cases h2 : phaseNum s = 2
    · obtain ⟨w, d, e, ew, ed⟩ := readHeader_loaded k.loaded (k.inv.lenHeader (by omega) (by omega))
      have ht := exec_at .rdhdr h h2
      simp only [Phase.operation, exec, execRdhdr, e, finish, Host.Outcome.next.injEq] at ht
      subst ht
      exact ⟨ew, ed⟩
    · obtain ⟨-, ew, ed⟩ := a.header h2
      rw [ew, ed]
      exact k.header (by omega) (by omega)
  · rw [a.src]
    by_cases h8 : phaseNum s = 8
    · obtain ⟨-, hw⟩ := execEmithdr_writes (exec_at .emithdr h h8)
      rw [k.inv.outLenZero (.inl (by omega)), k.header_eq h8] at hw
      rw [← hw b hlt, Nat.zero_add]
    · have old := k.outHeader (by omega) (by omega) b hlt
      by_cases h9 : phaseNum s = 9
      · exact ((k.inv.emitpix_appends h9 h).2.1 b hlt).trans old
      · rw [(a.out h8 h9).1]
        exact old
  · rw [a.src] at hlt ⊢
    rw [a.srcLen]
    by_cases h9 : phaseNum s = 9
    · have hp := (k.inv.emitpix_appends h9 h).2.2 p (by rw [(k.sizes (by omega) (by omega)).1]; exact hlt)
      rw [k.shownColour_eq h9, show 54 + 3 * p + 1 = 55 + 3 * p by omega, show 54 + 3 * p + 2 = 56 + 3 * p by omega] at hp
      exact hp
    · rw [(a.out (by omega) h9).1]
      exact k.outPixels (by omega) (by omega) p hlt

end Sys2Proof.Machine

namespace Sys2Proof.Machine

/-! Where the run of a stream ends (R184, R208). -/

section
variable {src : Memory 8} {l : Nat} (ok : Bool)

theorem legalHeader_iff : Tex.LegalHeader src ↔
    ¬ (Tex.width src ≤ 0 ∨ 4096 < Tex.width src ∨ Tex.height src ≤ 0 ∨ 4096 < Tex.height src) := by
  rw [Tex.LegalHeader]
  omega

theorem end_of_short (h : l < 32) : Tex.stepCount src l = 1 ∧ Tex.verdict src l ok = .truncatedPalette :=
  ⟨if_pos h, if_pos h⟩

theorem end_of_illegal (h : 32 ≤ l) (hd : ¬ Tex.LegalHeader src) :
    Tex.stepCount src l = 3 ∧ Tex.verdict src l ok = .invalidDimensions := by
  rw [legalHeader_iff, not_not] at hd
  rw [Tex.stepCount, Tex.verdict, if_neg (not_lt.mpr h), if_neg (not_lt.mpr h), if_pos hd, if_pos hd]
  exact ⟨rfl, rfl⟩

theorem end_of_short_pixels (h : 32 ≤ l) (hd : Tex.LegalHeader src) (hp : l < 24 + Tex.dataSize src) :
    Tex.stepCount src l = 5 ∧ Tex.verdict src l ok = .truncatedData := by
  rw [legalHeader_iff] at hd
  rw [Tex.stepCount, Tex.verdict, if_neg (not_lt.mpr h), if_neg (not_lt.mpr h), if_neg hd, if_neg hd, if_pos hp, if_pos hp]
  exact ⟨rfl, rfl⟩

theorem end_of_overlap (h : 32 ≤ l) (hd : Tex.LegalHeader src) (hp : 24 + Tex.dataSize src ≤ l)
    (ho : l < 56 + Tex.dataSize src) : Tex.stepCount src l = 6 ∧ Tex.verdict src l ok = .truncatedPalette := by
  rw [legalHeader_iff] at hd
  rw [Tex.stepCount, Tex.verdict, if_neg (not_lt.mpr h), if_neg (not_lt.mpr h), if_neg hd, if_neg hd,
    if_neg (not_lt.mpr hp), if_neg (not_lt.mpr hp), if_pos ho, if_pos ho]
  exact ⟨rfl, rfl⟩

theorem end_of_whole (hd : Tex.LegalHeader src) (h : 56 + Tex.dataSize src ≤ l) :
    Tex.stepCount src l = 10 ∧ Tex.verdict src l ok = if ok then .noError else .writeError := by
  have h32 : ¬ l < 32 := by omega
  have hp : ¬ l < 24 + Tex.dataSize src := by omega
  rw [legalHeader_iff] at hd
  rw [Tex.stepCount, Tex.verdict, if_neg h32, if_neg h32, if_neg hd, if_neg hd, if_neg hp, if_neg hp,
    if_neg (not_lt.mpr h), if_neg (not_lt.mpr h)]
  exact ⟨rfl, rfl⟩

end

/-- The core turns the run of s takes (R184). -/
abbrev turnsOf (s : State) : Nat := Tex.stepCount s.src s.srcLen.toNat

section
variable {s : State}

/-- A run whose COMMIT is reached ends there, with the sink's answer (R165). -/
theorem Tracks.end_of_commit (k : Tracks s) (hp : phaseNum s = 10) :
    turnsOf s = 10 ∧ Tex.verdict s.src s.srcLen.toNat s.sinkOk = if s.sinkOk then .noError else .writeError := by
  have hpal := k.inv.lenPalette (by omega) (by omega)
  rw [(k.sizes (by omega) (by omega)).2] at hpal
  exact end_of_whole s.sinkOk (k.legalHeader (by omega) (by omega)) hpal

/-- An error is raised in the last turn of the run, and it is the verdict. -/
theorem Tracks.last_of_raises (k : Tracks s) {e : ErrCode} (h : Raises s e) :
    phaseNum s = turnsOf s ∧ e = Tex.verdict s.src s.srcLen.toNat s.sinkOk := by
  have hnum := fun p : Phase => (phaseNum_eq_iff s p).mpr
  cases h with
  | chklen hp h =>
    obtain ⟨hs, hv⟩ := end_of_short (src := s.src) s.sinkOk h
    exact ⟨(hnum _ hp).trans hs.symm, hv.symm⟩
  | chkdim hp h =>
    replace hnum : phaseNum s = 3 := hnum _ hp
    rw [k.legalHeader_iff (by omega) (by omega)] at h
    obtain ⟨hs, hv⟩ := end_of_illegal s.sinkOk (k.inv.lenHeader (by omega) (by omega)) h
    exact ⟨hnum.trans hs.symm, hv.symm⟩
  | ldpix hp h =>
    replace hnum : phaseNum s = 5 := hnum _ hp
    rw [(k.sizes (by omega) (by omega)).2] at h
    obtain ⟨hs, hv⟩ := end_of_short_pixels s.sinkOk (k.inv.lenHeader (by omega) (by omega))
      (k.legalHeader (by omega) (by omega)) h
    exact ⟨hnum.trans hs.symm, hv.symm⟩
  | ldpal hp h =>
    replace hnum : phaseNum s = 6 := hnum _ hp
    have hpix := k.inv.lenPixels (by omega) (by omega)
    rw [(k.sizes (by omega) (by omega)).2] at h hpix
    obtain ⟨hs, hv⟩ := end_of_overlap s.sinkOk (k.inv.lenHeader (by omega) (by omega))
      (k.legalHeader (by omega) (by omega)) hpix h
    exact ⟨hnum.trans hs.symm, hv.symm⟩
  | commit hp h =>
    replace hnum : phaseNum s = 10 := hnum _ hp
    obtain ⟨hs, hv⟩ := k.end_of_commit hnum
    exact ⟨hnum.trans hs.symm, by rw [hv, h]; rfl⟩

/-- A run has passed the checks of the turns it has made, so it is not past its last turn. -/
theorem Tracks.num_le (k : Tracks s) (hb : ¬ Halted s) : phaseNum s ≤ turnsOf s := by
  obtain ⟨-, h10⟩ := (busy_num s).mp hb
  by_contra! hlt
  rcases Nat.lt_or_ge s.srcLen.toNat 32 with h32 | h32
  · rw [turnsOf, (end_of_short true h32).1] at hlt
    have := k.inv.lenHeader (by omega) h10
    omega
  by_cases hd : Tex.LegalHeader s.src
  · rcases Nat.lt_or_ge s.srcLen.toNat (24 + Tex.dataSize s.src) with hp | hp
    · rw [turnsOf, (end_of_short_pixels true h32 hd hp).1] at hlt
      rw [← (k.sizes (by omega) (by omega)).2] at hp
      have := k.inv.lenPixels (by omega) h10
      omega
    rcases Nat.lt_or_ge s.srcLen.toNat (56 + Tex.dataSize s.src) with ho | ho
    · rw [turnsOf, (end_of_overlap true h32 hd hp ho).1] at hlt
      rw [← (k.sizes (by omega) (by omega)).2] at ho
      have := k.inv.lenPalette (by omega) h10
      omega
    · rw [turnsOf, (end_of_whole true hd ho).1] at hlt
      omega
  · rw [turnsOf, (end_of_illegal true h32 hd).1] at hlt
    exact hd (k.legalHeader (by omega) (by omega))

/-- Raising keeps the phase invariant: every check but CHKLEN's and LDPAL's comes with HDR_VALID = 1 (R183). -/
theorem Raises.runInv {e : ErrCode} (h : Raises s e) (hi : RunInv s) : RunInv (raise e s) := by
  have hnum := fun p : Phase => (phaseNum_eq_iff s p).mpr
  have hdr : ∀ p : Phase, s.phase = p → 3 ≤ p.code.toNat → p.code.toNat ≤ 11 → s.hdrValid = true :=
    fun p hp h3 h11 => hi.headerRead (by rw [hnum p hp]; exact h3) (by rw [hnum p hp]; exact h11)
  cases h with
  | chklen hp | ldpal hp => exact raise_runInv _ s (by decide) hi fun hne => absurd rfl hne
  | chkdim hp | ldpix hp | commit hp => exact raise_runInv _ s (by decide) hi fun _ => hdr _ hp (by decide) (by decide)

end

/-- t is where the run of s ends when the sink's answer at COMMIT is ok. -/
structure Ends (s : State) (ok : Bool) (t : State) : Prop where
  src : t.src = s.src
  srcLen : t.srcLen = s.srcLen
  tracks : Tracks t
  halted : t.phase = .done ∨ t.phase = .fail
  errCode : t.errCode = Tex.verdict s.src s.srcLen.toNat ok

/-- Raising the verdict ends a run. -/
theorem ends_raise {s : State} (k : Tracks s) {e : ErrCode} (h : Raises s e) : Ends s s.sinkOk (raise e s) where
  src := rfl
  srcLen := rfl
  tracks := {
    inv := h.runInv k.inv
    loaded := k.loaded
    header := fun _ h11 => absurd h11 (show ¬ 12 ≤ 11 by decide)
    outHeader := fun _ h11 => absurd h11 (show ¬ 12 ≤ 11 by decide)
    outPixels := fun _ h11 => absurd h11 (show ¬ 12 ≤ 11 by decide) }
  halted := .inr rfl
  errCode := (k.last_of_raises h).2

/-- The core's turn in a run: it makes the next turn of the run, or the last. -/
theorem Tracks.turn {s : State} (k : Tracks s) (hb : ¬ Halted s) : ∃ t, exec (Phase.operation s.phase) s = .next t ∧
    ((Tracks t ∧ ¬ Halted t ∧ phaseNum t = phaseNum s + 1) ∨ (phaseNum s = turnsOf s ∧ Ends s s.sinkOk t)) := by
  by_cases hr : ∃ e, Raises s e
  · obtain ⟨e, he⟩ := hr
    exact ⟨_, exec_of_raises he, .inr ⟨(k.last_of_raises he).1, ends_raise k he⟩⟩
  have hn : ∀ e, ¬ Raises s e := fun e he => hr ⟨e, he⟩
  obtain ⟨t, ht⟩ := k.inv.exec_completes k.loaded
  have a := exec_advances hb hn ht
  have num := a.num
  have kt := k.advance hb hn ht
  obtain ⟨-, h10⟩ := (busy_num s).mp hb
  refine ⟨t, ht, ?_⟩
  by_cases hp : phaseNum s = 10
  · obtain ⟨hturns, hv⟩ := k.end_of_commit hp
    have hdone : t.phase = .done := (phaseNum_eq_iff t .done).mp (by rw [num, hp]; rfl)
    have hok : s.sinkOk = true := by
      by_contra hf
      exact hn _ (.commit ((phaseNum_eq_iff s .commit).mp hp) (Bool.eq_false_of_not_eq_true hf))
    refine .inr ⟨hp.trans hturns.symm, a.src, a.srcLen, kt, .inl hdone, ?_⟩
    rw [hv, if_pos hok]
    exact kt.inv.error.mpr (by rw [hdone]; decide)
  · exact .inl ⟨kt, (busy_num t).mpr (by omega), num⟩

end Sys2Proof.Machine

namespace Sys2Proof.Machine

/-! A run through its list of inputs (log 5). -/

/-- The inputs to come give the turns l and then rest, where an empty list may leave the last of the turns to the core. -/
def Gives (inputs l rest : List Input) : Prop :=
  ∃ is r, l = is ++ List.replicate r .core ∧ inputs = is ++ rest ∧ (r = 0 ∨ rest = [])

theorem Gives.nil {inputs rest : List Input} (g : Gives inputs [] rest) : inputs = rest := by
  obtain ⟨is, r, hl, hi, -⟩ := g
  rw [hi, (List.append_eq_nil_iff.mp hl.symm).1, List.nil_append]

/-- The first turn is the first input, or the core's because none is left. -/
theorem Gives.cons {inputs l rest : List Input} {i : Input} (g : Gives inputs (i :: l) rest) :
    (∃ is, inputs = i :: is ∧ Gives is l rest) ∨ (i = .core ∧ inputs = [] ∧ Gives [] l rest) := by
  obtain ⟨is, r, hl, hi, hr⟩ := g
  cases is with
  | cons j is =>
    obtain ⟨rfl, rfl⟩ := List.cons.inj hl
    exact .inl ⟨is ++ rest, hi, is, r, rfl, rfl, hr⟩
  | nil =>
    cases r with
    | zero => cases hl
    | succ r =>
      obtain ⟨rfl, rfl⟩ := List.cons.inj hl
      obtain rfl : rest = [] := hr.resolve_left (Nat.succ_ne_zero r)
      exact .inr ⟨rfl, hi, [], r, rfl, rfl, .inr rfl⟩

theorem fillsRun_core {l : List Input} {made left : Nat} (h : fillsRun (.core :: l) made left = true) :
    fillsRun l (made + 1) (left - 1) = true := by
  cases left with
  | zero => cases h
  | succ left => exact h

theorem fillsRun_between {l : List Input} {i : Input} {made left : Nat} (hi : i ≠ .core)
    (h : fillsRun (i :: l) made left = true) : mayComeBetween made i = true ∧ fillsRun l made left = true := by
  cases left with
  | zero => cases h
  | succ left =>
    rw [fillsRun, if_neg hi, Bool.and_eq_true] at h
    exact h

theorem fillsRun_none_left {l : List Input} {made : Nat} (h : fillsRun l made 0 = true) : l = [] := by
  cases l with
  | nil => rfl
  | cons i l => cases h

theorem sinkAfter_cons (ok : Bool) (i : Input) (l : List Input) :
    sinkAfter ok (i :: l) = sinkAfter (sinkAfter ok [i]) l := by cases i <;> rfl

/-- Turns of the core leave the sink's answer as it is. -/
theorem sinkAfter_append_cores (ok : Bool) (is : List Input) (r : Nat) :
    sinkAfter ok (is ++ List.replicate r .core) = sinkAfter ok is := by
  induction is generalizing ok with
  | nil =>
    induction r with
    | zero => rfl
    | succ r ih => exact ih
  | cons i is ih => rw [List.cons_append, sinkAfter_cons, ih, ← sinkAfter_cons]

/-- s is in a run that tracks its stream, and the list l holds exactly the turns the run still needs. -/
structure OnCourse (s : State) (l : List Input) : Prop where
  tracks : Tracks s
  busy : ¬ Halted s
  turns : fillsRun l (phaseNum s - 1) (turnsOf s + 1 - phaseNum s) = true

/-- What comes between the core's turns does not touch what a run computes. -/
theorem Tracks.between {s t : State} {is : List Input} {ok : Bool} {reply : HostReply} {f : FnResult} (k : Tracks s)
    (h : t = { s with inputs := is, sinkOk := ok, hostReply := reply, fnOut := f }) : Tracks t := by
  subst h
  exact ⟨k.inv.of_same rfl rfl rfl rfl rfl rfl rfl rfl rfl rfl rfl rfl rfl (.inl ⟨rfl, rfl⟩), k.loaded, k.header,
    k.outHeader, k.outPixels⟩

/-- The core's turn runs the operation in PHASE, the turn used up. -/
theorem Gives.step_core {s : State} {l rest : List Input} (g : Gives s.inputs (.core :: l) rest) :
    ∃ is, step s = exec (Phase.operation s.phase) (withInputs s is) ∧ Gives is l rest := by
  rcases g.cons with ⟨is, hi, hg⟩ | ⟨-, hi, hg⟩
  · exact ⟨is, Machine.step_core s is hi, hg⟩
  · refine ⟨[], ?_, hg⟩
    rw [step_core_empty s hi, ← hi]
    rfl

/-- One turn of a run: it stays on course, or it was the last and the run ends. -/
theorem OnCourse.next {s : State} {i : Input} {l rest : List Input} (c : OnCourse s (i :: l))
    (g : Gives s.inputs (i :: l) rest) : ∃ t, step s = .next t ∧ Gives t.inputs l rest ∧
      ((OnCourse t l ∧ t.src = s.src ∧ t.srcLen = s.srcLen ∧ sinkAfter t.sinkOk l = sinkAfter s.sinkOk (i :: l)) ∨
       (l = [] ∧ Ends s (sinkAfter s.sinkOk (i :: l)) t)) := by
  have h1 := ((busy_num s).mp c.busy).1
  have hle := c.tracks.num_le c.busy
  by_cases hi : i = .core
  · subst hi
    obtain ⟨is, hs, hg⟩ := g.step_core
    have kv : Tracks (withInputs s is) := c.tracks.between rfl
    obtain ⟨t, ht, hend⟩ := kv.turn c.busy
    obtain ⟨hsrc, hlen, hin, hsink⟩ := exec_keeps _ _ t ht
    have hl := fillsRun_core c.turns
    refine ⟨t, hs.trans ht, hin ▸ hg, ?_⟩
    rcases hend with ⟨kt, hb, hnum⟩ | ⟨hlast, hend⟩
    · have hturns : turnsOf t = turnsOf s := by rw [turnsOf, hsrc, hlen]; rfl
      replace hnum : phaseNum t = phaseNum s + 1 := hnum
      refine .inl ⟨⟨kt, hb, ?_⟩, hsrc, hlen, by rw [hsink]; rfl⟩
      rw [hturns, hnum]
      rwa [show phaseNum s - 1 + 1 = phaseNum s + 1 - 1 by omega,
        show turnsOf s + 1 - phaseNum s - 1 = turnsOf s + 1 - (phaseNum s + 1) by omega] at hl
    · replace hlast : phaseNum s = turnsOf s := hlast
      rw [show turnsOf s + 1 - phaseNum s - 1 = 0 by omega] at hl
      obtain rfl := fillsRun_none_left hl
      exact .inr ⟨rfl, hend.src, hend.srcLen, hend.tracks, hend.halted, hend.errCode⟩
  · obtain ⟨hc, hl⟩ := fillsRun_between hi c.turns
    obtain ⟨is, hin, hg⟩ : ∃ is, s.inputs = i :: is ∧ Gives is l rest := g.cons.resolve_right fun h => hi h.1
    obtain ⟨t, hs, hsink, ht⟩ := step_between c.tracks.inv c.busy (by omega) hin hc
    have hphase : t.phase = s.phase := by rw [ht]
    have hsrc : t.src = s.src := by rw [ht]
    have hlen : t.srcLen = s.srcLen := by rw [ht]
    have hrest : t.inputs = is := by rw [ht]
    have hsink' : sinkAfter t.sinkOk l = sinkAfter s.sinkOk (i :: l) := by rw [hsink, ← sinkAfter_cons]
    refine ⟨t, hs, hrest ▸ hg, .inl ⟨⟨c.tracks.between ht, ?_, ?_⟩, hsrc, hlen, hsink'⟩⟩
    · rw [Halted, hphase]
      exact c.busy
    · rw [turnsOf, phaseNum, hphase, hsrc, hlen]
      exact hl

/-- A run on course is BUSY before each of its turns and ends with the last. -/
theorem OnCourse.run {l rest : List Input} {s : State} (c : OnCourse s l) (g : Gives s.inputs l rest) :
    (∀ k, k < l.length → ∃ t, Host.Core.run Sys2Proof.core k s = .next t ∧ Machine.busy t = true) ∧
    ∃ t, Host.Core.run Sys2Proof.core l.length s = .next t ∧ t.inputs = rest ∧ Ends s (sinkAfter s.sinkOk l) t := by
  induction l generalizing s with
  | nil =>
    have hle := c.tracks.num_le c.busy
    have h0 : turnsOf s + 1 - phaseNum s = 0 := by simpa [fillsRun] using c.turns
    omega
  | cons i l ih =>
    have hb := (busy_iff s).mpr c.busy
    obtain ⟨u, hs, hg, ⟨cu, hsrc, hlen, hsink⟩ | ⟨rfl, hend⟩⟩ := c.next g
    · obtain ⟨hbusy, t, ht, hin, hend⟩ := ih cu hg
      refine ⟨fun k hk => ?_, t, (run_succ hs).trans ht, hin, ?_⟩
      · cases k with
        | zero => exact ⟨s, rfl, hb⟩
        | succ k =>
          obtain ⟨v, hv, hvb⟩ := hbusy k (Nat.lt_of_succ_lt_succ hk)
          exact ⟨v, (run_succ hs).trans hv, hvb⟩
      · rw [hsink] at hend
        exact ⟨hend.src.trans hsrc, hend.srcLen.trans hlen, hend.tracks, hend.halted, by rw [hend.errCode, hsrc, hlen]⟩
    · refine ⟨fun k hk => ?_, u, run_succ hs, hg.nil, hend⟩
      obtain rfl : k = 0 := Nat.lt_one_iff.mp hk
      exact ⟨s, rfl, hb⟩

/-- A started run over a loaded stream tracks it: nothing has been computed yet. -/
theorem tracks_startRun {s : State} (h : SrcLoaded s) : Tracks (startRun s) where
  inv := startRun_runInv s
  loaded := h
  header := fun h3 _ => absurd h3 (show ¬ 3 ≤ 1 by decide)
  outHeader := fun h9 _ => absurd h9 (show ¬ 9 ≤ 1 by decide)
  outPixels := fun h10 _ => absurd h10 (show ¬ 10 ≤ 1 by decide)

/-- START in a halt state begins a run (R180). -/
theorem exec_start_accepted {s : State} {ctrl : Word} (hh : Halted s) (hc : ctrl.getLsbD 0 = true) :
    exec (.start ctrl) s = .next (startRun s) := by
  refine if_pos ?_
  rw [hc, (busy_false_iff s).mpr hh]
  rfl

/-- The first step of a launch is START, and the run it begins is on course. -/
theorem Launch.start {s : State} {is rest : List Input} {r : Nat} (h : Launch s is rest r) :
    ∃ u, step s = .next u ∧ OnCourse u (is ++ List.replicate r .core) ∧
      Gives u.inputs (is ++ List.replicate r .core) rest ∧
      u.src = s.src ∧ u.srcLen = s.srcLen ∧ u.sinkOk = s.sinkOk := by
  obtain ⟨ctrl, hc, hin⟩ := h.command
  have hs : step s = .next (startRun (withInputs s (is ++ rest))) := by
    rw [step_writeCtrl s ctrl _ hin, runWord_ctrlword, if_pos hc,
      exec_start_accepted (s := withInputs s (is ++ rest)) h.halted hc]
  refine ⟨_, hs, ⟨tracks_startRun h.loaded, (busy_num _).mpr (show 1 ≤ 1 ∧ 1 ≤ 10 by decide), h.turns⟩,
    ⟨is, r, rfl, rfl, h.lastTurns⟩, rfl, rfl, rfl⟩

/-- A launched run is BUSY after START and before each of its turns, and ends with the last (R184). -/
theorem Launch.run {s : State} {is rest : List Input} {r : Nat} (h : Launch s is rest r) :
    (∀ k, k < is.length + r → ∃ t, Host.Core.run Sys2Proof.core (k + 1) s = .next t ∧ Machine.busy t = true) ∧
    ∃ t, Host.Core.run Sys2Proof.core (is.length + r + 1) s = .next t ∧ t.inputs = rest ∧
      Ends s (sinkAfter s.sinkOk is) t := by
  obtain ⟨u, hs, c, g, hsrc, hlen, hsink⟩ := h.start
  obtain ⟨hbusy, t, ht, hin, hend⟩ := c.run g
  have hcount : (is ++ List.replicate r Input.core).length = is.length + r := by simp
  rw [hcount] at hbusy ht
  rw [sinkAfter_append_cores, hsink] at hend
  refine ⟨fun k hk => ?_, t, (run_succ hs).trans ht, hin, ?_⟩
  · obtain ⟨v, hv, hvb⟩ := hbusy k hk
    exact ⟨v, (run_succ hs).trans hv, hvb⟩
  · exact ⟨hend.src.trans hsrc, hend.srcLen.trans hlen, hend.tracks, hend.halted, by rw [hend.errCode, hsrc, hlen]⟩

/-- A run that ends with an error is in FAIL with no output (R210). -/
theorem Ends.fail {s t : State} {ok : Bool} (e : Ends s ok t)
    (hv : Tex.verdict s.src s.srcLen.toNat ok ≠ .noError) : t.phase = .fail ∧ t.outLen = 0 := by
  have hp : t.phase = .fail := by
    by_contra hne
    exact hv (e.errCode.symm.trans (e.tracks.inv.error.mpr hne))
  exact ⟨hp, e.tracks.inv.outLenZero (.inr hp)⟩

/-- A run that ends without one is in DONE with the whole bitmap of its stream (R70, R164). -/
theorem Ends.done {s t : State} {ok : Bool} (e : Ends s ok t) (hv : Tex.verdict s.src s.srcLen.toNat ok = .noError) :
    t.phase = .done ∧ t.outLen = 54 + 3 * Tex.npix s.src ∧ s32 t.width = Tex.width s.src ∧
      s32 t.height = Tex.height s.src ∧ Tex.OutputIsBitmap s.src s.srcLen.toNat t.out := by
  have k := e.tracks
  have hp : t.phase = .done := e.halted.resolve_right (k.inv.error.mp (e.errCode.trans hv))
  have hnum : phaseNum t = 11 := (phaseNum_eq_iff t .done).mpr hp
  obtain ⟨hw, hh⟩ := k.header (by omega) (by omega)
  have hn := (k.sizes (by omega) (by omega)).1
  rw [← e.src, ← e.srcLen]
  exact ⟨hp, by rw [k.inv.outLenAll (.inr hp), hn], hw, hh, k.outHeader (by omega) (by omega),
    k.outPixels (by omega) (by omega)⟩

/-- Settles O47: a launched run tracks its stream turn by turn, so it ends with the verdict of the formulas, and in DONE its
registers and OUT are theirs. -/
theorem runConvertsTheStream : Obligations.RunConvertsTheStream := by
  intro s is rest r h
  obtain ⟨-, t, ht, hin, e⟩ := h.run
  exact ⟨t, ht, hin, e.src, e.srcLen, e.errCode, e.fail, e.done⟩

end Sys2Proof.Machine

namespace Sys2Proof.Machine

/-! The memories stay canonical (R34, R10): the only writer is `Memory.write`, and START and reset empty a memory. -/

/-- Settles O36: every memory is empty after reset (R40). -/
theorem memoriesAreCanonicalAtReset : Obligations.MemoriesAreCanonicalAtReset :=
  ⟨Memory.wf_nil, Memory.wf_nil, Memory.wf_nil, Memory.wf_nil⟩

/-- Every operation of the core keeps the memories canonical: LDPIX, UNPACK, EMITHDR and EMITPIX write one memory each, the
others none (R35 to R38). -/
theorem MemoriesWf.exec {p : Phase} {s t : State} (hw : MemoriesWf s) (h : exec (Phase.operation p) s = .next t) :
    MemoriesWf t := by
  have ⟨hsrc, hpix, hidx, hout⟩ := hw
  cases p
  case idle | done | fail => cases h; exact hw
  case chklen => rcases execChklen_next s t h with ⟨-, rfl⟩ | ⟨-, rfl⟩ <;> exact hw
  case rdhdr => rw [execRdhdr_next s t h]; exact hw
  case chkdim => rcases execChkdim_next s t h with ⟨-, rfl⟩ | ⟨-, rfl⟩ <;> exact hw
  case size => rw [execSize_next s t h]; exact hw
  case ldpix =>
    rcases execLdpix_next s t h with ⟨-, rfl⟩ | ⟨-, u, hu, rfl⟩
    · exact hw
    · obtain ⟨e, hwf⟩ := copyPix_keeps _ _ _ _ hu
      rw [e]
      exact ⟨hsrc, hwf hpix, hidx, hout⟩
  case ldpal =>
    rcases execLdpal_next s t h with ⟨-, rfl⟩ | ⟨-, u, hu, rfl⟩
    · exact hw
    · rw [loadPal_keeps _ _ _ _ hu]
      exact hw
  case unpack =>
    obtain ⟨u, hu, rfl⟩ := execUnpack_next s t h
    obtain ⟨e, hwf⟩ := unpackByte_keeps _ _ _ _ hu
    rw [e]
    exact ⟨hsrc, hpix, hwf hidx, hout⟩
  case emithdr =>
    obtain ⟨m, e, -, -, hwf⟩ := emitHeader_spec Params.hw s
    rw [execEmithdr_next s t h, e]
    exact ⟨hsrc, hpix, hidx, hwf hout⟩
  case emitpix =>
    obtain ⟨u, hu, rfl⟩ := execEmitpix_next s t h
    obtain ⟨e, hwf⟩ := emitRows_keeps _ _ _ _ hu
    rw [e]
    exact ⟨hsrc, hpix, hidx, hwf hout⟩
  case commit => rcases execCommit_next s t h with ⟨-, rfl⟩ | ⟨-, rfl⟩ <;> exact hw

/-- A started run has kept SRC and emptied the other memories (R180). -/
theorem MemoriesWf.startRun {s : State} (hw : MemoriesWf s) : MemoriesWf (startRun s) :=
  ⟨hw.1, Memory.wf_nil, Memory.wf_nil, Memory.wf_nil⟩

/-- Settles O37: by the kinds of step. The core's operations keep the memories canonical, START and reset empty them, a
host write of SRC is one `Memory.write`, and the other inputs touch no memory. -/
theorem everyStepKeepsMemoriesCanonical : Obligations.EveryStepKeepsMemoriesCanonical := by
  intro s t hw h
  rcases step_cases s t h with ⟨u, hu, h⟩ | ⟨-, rest, -, ht⟩ | ⟨ok, rest, -, rfl⟩ | ⟨v, rest, -, hstart⟩ |
    ⟨n, v, rest, -, -, hcsr⟩ | ⟨a, b, rest, -, hsrc⟩ | ⟨-, rest, -, ht⟩ | ⟨-, rest, -, ht⟩ | ⟨rest, -, rfl⟩
  · have hwu : MemoriesWf u := by rcases hu with ⟨rfl, -⟩ | ⟨rest, -, rfl⟩ <;> exact hw
    exact hwu.exec h
  · rw [ht]; exact hw
  · exact hw
  · rcases hstart with ⟨-, -, rfl⟩ | rfl
    · exact MemoriesWf.startRun (s := withInputs s rest) hw
    · exact hw
  · rcases hcsr with ⟨-, -, rfl⟩ | rfl <;> exact hw
  · rcases hsrc with ⟨-, rfl⟩ | rfl
    · exact ⟨Memory.wf_write _ _ _ hw.1, hw.2⟩
    · exact hw
  · rw [ht]; exact hw
  · rw [ht]; exact hw
  · exact memoriesAreCanonicalAtReset

/-! After reset (R40). -/

/-- Settles O32: `State.reset` holds the reset table's values, and its memories are empty. -/
theorem resetValuesAreTheSpecs : Obligations.ResetValuesAreTheSpecs :=
  ⟨rfl, rfl, rfl, rfl, rfl, rfl, rfl, Memory.read_nil, Memory.read_nil, Memory.read_nil, Memory.read_nil⟩

/-- Settles O38: in IDLE, with HDR_VALID and the lengths at 0, the clauses about a run ask nothing. -/
theorem runInvHoldsAtReset : Obligations.RunInvHoldsAtReset := by
  have num : phaseNum State.reset = 0 := rfl
  constructor
  case error => exact ⟨fun _ h => (by cases h), fun _ => rfl⟩
  case headerNotRead => intro _; rfl
  case headerFail => intro h; cases h
  case idxLenZero => intro _; rfl
  case outLenZero => intro _; rfl
  case outLenHeader => intro h; cases h
  case outLenAll => rintro (h | h) <;> cases h
  case outWritten => intro a h; exact absurd h (Nat.not_lt_zero a)
  case fits => constructor <;> decide
  all_goals (intro h _; rw [num] at h; omega)

/-! The STATUS word (R30). -/

/-- STATUS reads PHASE, ERRCODE and HDR_VALID alone. -/
theorem status_of_fields {s : State} {p : Phase} {e : ErrCode} {v : Bool} (hp : s.phase = p) (he : s.errCode = e)
    (hv : s.hdrValid = v) : status s = status { State.reset with phase := p, errCode := e, hdrValid := v } := by
  subst hp he hv
  rfl

/-- Outside FAIL there is no error, and HDR_VALID says whether RDHDR has run (R26, R27). -/
theorem RunInv.fields_of_not_fail {s : State} (hi : RunInv s) (hp : s.phase ≠ .fail) :
    s.errCode = .noError ∧ s.hdrValid = decide (3 ≤ phaseNum s) := by
  refine ⟨hi.error.mpr hp, ?_⟩
  by_cases h3 : 3 ≤ phaseNum s
  · have h11 : phaseNum s ≤ 11 := by
      unfold phaseNum
      cases h : s.phase
      case fail => exact absurd h hp
      all_goals decide
    rw [hi.headerRead h3 h11, decide_eq_true h3]
  · rw [hi.headerNotRead (by omega), decide_eq_false h3]

/-- Settles O29: outside FAIL the phase fixes the word (R26, R27); in FAIL the error fixes it, but for CHKLEN's
TruncatedPalette, which comes with HDR_VALID = 0, and LDPAL's, which comes with 1 (R183, R203). -/
theorem statusTakesSeventeenValues : Obligations.StatusTakesSeventeenValues := by
  intro s hi
  by_cases hp : s.phase = .fail
  · have hne : s.errCode ≠ .noError := fun h => hi.error.mp h hp
    cases he : s.errCode
    case noError => exact absurd he hne
    case truncatedPalette => cases hv : s.hdrValid <;> rw [status_of_fields hp he hv] <;> decide
    all_goals
      have hv := hi.headerFail hp (by rw [he]; decide)
      rw [status_of_fields hp he hv]
      decide
  · obtain ⟨he, hv⟩ := hi.fields_of_not_fail hp
    rw [status_of_fields rfl he hv]
    unfold phaseNum
    cases h : s.phase
    case fail => exact absurd h hp
    all_goals decide

theorem bitWord_toNat (b : Bool) : (bitWord b).toNat = if b then 1 else 0 := by cases b <;> rfl

/-- A field of k bits put at bit n above a word of n bits adds 2^n times its value. -/
theorem toNat_or_shiftLeft {x y : Word} {n k : Nat} (hnk : n + k ≤ 32) (hx : x.toNat < 2 ^ n) (hy : y.toNat < 2 ^ k) :
    (x ||| y <<< n).toNat = x.toNat + 2 ^ n * y.toNat := by
  have hfit : 2 ^ n * y.toNat < 2 ^ 32 :=
    calc 2 ^ n * y.toNat < 2 ^ n * 2 ^ k := Nat.mul_lt_mul_of_pos_left hy (Nat.two_pow_pos n)
      _ = 2 ^ (n + k) := (Nat.pow_add 2 n k).symm
      _ ≤ 2 ^ 32 := Nat.pow_le_pow_right (by decide) hnk
  rw [BitVec.toNat_or, BitVec.toNat_shiftLeft, Nat.shiftLeft_eq, Nat.mul_comm, Nat.mod_eq_of_lt hfit, Nat.or_comm,
    ← Nat.two_pow_add_eq_or_of_lt hx, Nat.add_comm]

/-- A flag put at bit n above a word of n bits adds 2^n if it is set. -/
theorem toNat_or_bitWord {x : Word} {n : Nat} (hn : n < 32) (hx : x.toNat < 2 ^ n) (b : Bool) :
    (x ||| bitWord b <<< n).toNat = x.toNat + 2 ^ n * (if b then 1 else 0) ∧
      (x ||| bitWord b <<< n).toNat < 2 ^ (n + 1) := by
  have h := toNat_or_shiftLeft (k := 1) hn hx (y := bitWord b) (by cases b <;> decide)
  rw [bitWord_toNat] at h
  refine ⟨h, ?_⟩
  rw [h, Nat.pow_succ]
  cases b <;> simp <;> omega

/-- Settles O28: each field of R30 stands above the bits of those before it, so `|||` adds. -/
theorem statusPacksItsFields : Obligations.StatusPacksItsFields := by
  intro s
  have h0 : (s.phase.code.setWidth 32).toNat = s.phase.code.toNat :=
    BitVec.toNat_setWidth_of_le (by decide)
  have hp : (s.phase.code.setWidth 32).toNat < 2 ^ 4 := h0 ▸ s.phase.code.isLt
  obtain ⟨h1, b1⟩ := toNat_or_bitWord (by decide) hp (busy s)
  obtain ⟨h2, b2⟩ := toNat_or_bitWord (by decide) b1 (doneFlag s)
  obtain ⟨h3, b3⟩ := toNat_or_bitWord (by decide) b2 (failFlag s)
  obtain ⟨h4, b4⟩ := toNat_or_bitWord (by decide) b3 s.hdrValid
  have he : (s.errCode.code.setWidth 32).toNat = s.errCode.code.toNat :=
    BitVec.toNat_setWidth_of_le (by decide)
  rw [status, toNat_or_shiftLeft (k := 3) (by decide) b4 (he ▸ s.errCode.code.isLt), h4, h3, h2, h1, h0, he]
  simp [busy, doneFlag, failFlag]

/-! Decoding (R97, R98, R106). -/

/-- Settles O1: PHASE's codes by `decode_phase`, a CTRLWORD by its bit 0, and a function's word by its format. -/
theorem decodeReadsTheTablesWords : Obligations.DecodeReadsTheTablesWords :=
  ⟨decode_phase .idle, decode_phase .chklen, decode_phase .rdhdr, decode_phase .chkdim, decode_phase .size,
    decode_phase .ldpix, decode_phase .ldpal, decode_phase .unpack, decode_phase .emithdr, decode_phase .emitpix,
    decode_phase .commit, decode_phase .done, decode_phase .fail, rfl, rfl, rfl,
    fun _ h => if_pos h, fun _ h => if_neg (Bool.not_eq_true _ ▸ h),
    fun _ => rfl, fun _ => rfl, fun _ => rfl, fun _ => rfl, fun _ => rfl⟩

/-! The host's reads and writes, one lemma per outcome (R28 to R32, R35, R186). -/

section
variable {c : Params} {a n : Nat} {b : Byte} {v : Word} {s : State} {rest : List Input}

theorem writeSrc_of_halted (ha : a < c.srcCap) (hh : Halted s) :
    writeSrc c a b s = .next { s with src := Memory.write s.src a b } := by
  rw [writeSrc, if_pos ha, (busy_false_iff s).mpr hh]
  rfl

theorem writeSrc_of_running (ha : a < c.srcCap) (hr : ¬ Halted s) : writeSrc c a b s = .next s := by
  rw [writeSrc, if_pos ha, if_pos ((busy_iff s).mpr hr)]

theorem writeSrc_beyond (ha : c.srcCap ≤ a) : writeSrc c a b s = .refused (.beyondSrcCap a) := if_neg (Nat.not_lt.mpr ha)

theorem writeCsr_two_of_halted (hh : Halted s) : writeCsr 2 v s = { s with srcLen := v } := by
  rw [writeCsr, (busy_false_iff s).mpr hh]
  rfl

theorem writeCsr_of_running (hr : ¬ Halted s) : writeCsr n v s = s :=
  (writeCsr_cases n v s).resolve_left fun h => hr h.1

theorem writeCsr_other (hn : n ≠ 2) : writeCsr n v s = s :=
  (writeCsr_cases n v s).resolve_left fun h => hn h.2.1

theorem step_readCsr (h : s.inputs = .host (.readCsr n) :: rest) :
    step s = hostMove (.readCsr n) (withInputs s rest) := by simp only [step, nextTurn, h]

theorem hostMove_readCsr_ok (h : readCsr n s = .ok v) :
    hostMove (.readCsr n) s = .next { s with hostReply := .word v } := by simp only [hostMove, h]

theorem hostMove_readCsr_error {r : Refusal} (h : readCsr n s = .error r) :
    hostMove (.readCsr n) s = .refused r := by simp only [hostMove, h]

/-- A register that does not exist reads 0 (R28). -/
theorem readCsr_zero_of_ge (hn : 6 ≤ n) : readCsr n s = .ok 0 := by
  obtain ⟨k, rfl⟩ := Nat.exists_eq_add_of_le' hn
  rfl

end

/-- Settles O26: a write reaches SRC or SRC_LEN only below SRC_CAP and in a halt state (R31, R35). -/
theorem hostWritesObeyTheInterlock : Obligations.HostWritesObeyTheInterlock := by
  refine ⟨Nat.le_add_right _ _, fun s rest => ⟨fun a b ha hi hh => ?_, fun a b ha hi hr => ?_, fun a b ha hi => ?_,
    fun v hi hh => ?_, fun v hi hr => ?_, fun n v h0 h2 hi => ?_⟩⟩
  · exact ⟨Memory.write s.src a b, (step_writeSrc s a b rest hi).trans (writeSrc_of_halted ha hh),
      Memory.read_write_same _ _ _, Memory.read_write_other _ _ _⟩
  · exact (step_writeSrc s a b rest hi).trans (writeSrc_of_running ha hr)
  · exact (step_writeSrc s a b rest hi).trans (writeSrc_beyond ha)
  · rw [step_writeCsr s 2 v rest (by decide) hi, writeCsr_two_of_halted (s := withInputs s rest) hh]
    rfl
  · rw [step_writeCsr s 2 v rest (by decide) hi, writeCsr_of_running (s := withInputs s rest) hr]
    rfl
  · rw [step_writeCsr s n v rest h0 hi, writeCsr_other h2]
    rfl

/-- Settles O27: `readCsr` by the CSR's number. -/
theorem hostReadsOfCsrsReturnTheWord : Obligations.HostReadsOfCsrsReturnTheWord := by
  intro s n rest hi
  rw [step_readCsr hi]
  refine ⟨fun v hv => hostMove_readCsr_ok ?_, fun hn hv => hostMove_readCsr_error ?_⟩
  · rcases hv with ⟨rfl, rfl⟩ | ⟨rfl, rfl⟩ | ⟨rfl, rfl⟩ | ⟨rfl, hval, rfl⟩ | ⟨rfl, hval, rfl⟩ | ⟨rfl, -, hout⟩ | ⟨hn, rfl⟩
    · rfl
    · rfl
    · rfl
    · exact if_pos hval
    · exact if_pos hval
    · rw [readCsr, withInputs_outLen, ← hout, BitVec.ofNat_toNat, BitVec.setWidth_eq]
    · exact readCsr_zero_of_ge hn
  · rcases hn with rfl | rfl <;> exact if_neg (Bool.eq_false_iff.mp hv)

end Sys2Proof.Machine

namespace Sys2Proof.Machine

/-! The source stream: how wide reads combine its bytes (R60, R62), and what may change it (R35, R31, R74). -/

/-- A one-byte read is the byte itself (R60). -/
theorem memRead_one {sp : Space} {m : Memory 8} {a : Nat} {b : Byte} (h : Memory.read m a = some b) :
    memRead sp m a 1 = .ok b.toNat := by
  simp [memRead, readCell_of_read h]

/-- Settles O35: the reads of each width, with the nested sum of four bytes flattened. -/
theorem wideReadsAreLittleEndian : Obligations.WideReadsAreLittleEndian := by
  intro sp m a b0 h0
  refine ⟨memRead_one h0, fun b1 h1 => ⟨memRead_two h0 h1, fun b2 b3 h2 h3 => ?_⟩⟩
  rw [memRead_four h0 h1 h2 h3]
  congr 1
  ring

/-- In a run no step but a reset changes SRC or SRC_LEN: the core's operations and START keep both, and the host's writes
reach them in a halt state only (R35, R31). -/
theorem step_keeps_source_of_running {s t : State} (h : step s = .next t)
    (hr : ∀ rest, s.inputs ≠ .host .assertReset :: rest) (hb : ¬ Halted s) : t.src = s.src ∧ t.srcLen = s.srcLen := by
  rcases step_cases s t h with ⟨u, hu, h⟩ | ⟨-, rest, -, ht⟩ | ⟨ok, rest, -, rfl⟩ | ⟨v, rest, -, hstart⟩ |
    ⟨n, v, rest, -, -, hcsr⟩ | ⟨a, b, rest, -, hsrc⟩ | ⟨-, rest, -, ht⟩ | ⟨-, rest, -, ht⟩ | ⟨rest, hi, -⟩
  · obtain ⟨hsrc, hlen, -⟩ := exec_keeps _ u t h
    rcases hu with ⟨rfl, -⟩ | ⟨rest, -, rfl⟩ <;> exact ⟨hsrc, hlen⟩
  · rw [ht]; exact ⟨rfl, rfl⟩
  · exact ⟨rfl, rfl⟩
  · rcases hstart with ⟨-, hh, -⟩ | rfl
    · exact absurd hh hb
    · exact ⟨rfl, rfl⟩
  · rcases hcsr with ⟨-, hh, -⟩ | rfl
    · exact absurd hh hb
    · exact ⟨rfl, rfl⟩
  · rcases hsrc with ⟨hh, -⟩ | rfl
    · exact absurd hh hb
    · exact ⟨rfl, rfl⟩
  · rw [ht]; exact ⟨rfl, rfl⟩
  · rw [ht]; exact ⟨rfl, rfl⟩
  · exact absurd hi (hr rest)

/-- The core's turn in a halt state, given or left by an empty list (log 5), uses up the turn and changes nothing else. -/
theorem step_of_halted {s : State} (hh : Halted s) (hi : s.inputs.head? = some .core ∨ s.inputs = []) :
    step s = .next { s with inputs := s.inputs.tail } := by
  rcases hi with hi | hi
  · obtain ⟨rest, hi⟩ := List.head?_eq_some_iff.mp hi
    rw [step_core s rest hi, hi]
    exact halted_exec (withInputs s rest) hh
  · rw [step_core_empty s hi, halted_exec s hh, hi, List.tail_nil, ← hi]

/-- Settles O42: in a run by the kinds of step, in a halt state by what the core's turn is there. -/
theorem sourceIsStableDuringARun : Obligations.SourceIsStableDuringARun := fun _ _ h hr =>
  ⟨step_keeps_source_of_running h hr, fun hh hi => Host.Outcome.next.inj (h.symm.trans (step_of_halted hh hi))⟩

end Sys2Proof.Machine

namespace Sys2Proof

/-! Decode and encode on bytes (R90, R97, R98, R106; the byte form is log 22). -/

/-- The decoder takes exactly the format's number of bytes, and no bit above the format's width. -/
theorem decodeBytes_eq_ok_iff (f : Format) (bs : List Byte) (i : Instr) : decodeBytes f bs = .ok i ↔
    bs.length = f.bytes ∧ leValue bs < 2 ^ f.bits ∧ decode (CodeWord.ofNat f (leValue bs)) = .ok i := by
  unfold decodeBytes
  by_cases hlen : bs.length = f.bytes
  · by_cases hval : leValue bs < 2 ^ f.bits
    · simp [hlen, hval, Nat.not_le.mpr hval]
    · simp [hlen, hval, Nat.not_lt.mp hval]
  · simp [hlen]

/-- The bytes of a format hold all its bits. -/
theorem Format.two_pow_bits_le (f : Format) : 2 ^ f.bits ≤ 256 ^ f.bytes := by cases f <;> decide

theorem leValue_leBytes_toNat (w : CodeWord) : leValue (leBytes w.format.bytes w.toNat) = w.toNat :=
  leValue_leBytes _ _ (w.toNat_lt.trans_le w.format.two_pow_bits_le)

/-- A well-formed operation's word decodes to it; a CTRLWORD's bit 0 is all that is checked (R29, R98). -/
theorem decode_encode {i : Instr} (h : i.wf = true) : decode (encode i) = .ok i := by
  cases i with
  | start ctrl => exact Laws.RoundTrip.start ctrl h
  | _ => rfl

/-- Settles O2: a word is read back from its bytes, and a well-formed operation from its word. -/
theorem decodeOfEncodedBytesGivesTheOperation : Obligations.DecodeOfEncodedBytesGivesTheOperation := by
  intro i hwf
  have hval := leValue_leBytes_toNat (encode i)
  rw [decodeBytes_eq_ok_iff, encodeBytes, hval, CodeWord.ofNat_format_toNat]
  exact ⟨leBytes_length _ _, (encode i).toNat_lt, decode_encode hwf⟩

/-- Settles O3: the word the bytes make is the encoding of a well-formed operation, and within the format's width the
bytes are that word's. -/
theorem encodeOfDecodedBytesGivesTheBytes : Obligations.EncodeOfDecodedBytesGivesTheBytes := by
  intro f bs i h
  obtain ⟨hlen, hval, hdec⟩ := (decodeBytes_eq_ok_iff f bs i).mp h
  obtain ⟨hwf, henc⟩ := encode_of_decode _ _ hdec
  refine ⟨hwf, ?_⟩
  rw [encodeBytes, henc, CodeWord.format_ofNat, CodeWord.toNat_ofNat f _ hval, ← hlen, leBytes_leValue]

end Sys2Proof

namespace Sys2Proof.Machine

/-! A word placed where the next step takes its operation from (log 13). -/

/-- A table word reads as an operation exactly when it stands for a code word that decodes to it (log 8). -/
theorem decodeTableWord_eq_some_iff (nbits w : Nat) (i : Instr) :
    decodeTableWord nbits w = some i ↔ ∃ cw, tableWord nbits w = some cw ∧ decode cw = .ok i := by
  unfold decodeTableWord
  cases tableWord nbits w with
  | none => simp
  | some cw => cases hdec : decode cw <;> simp [hdec]

theorem withFetchWord_of_tableWord {nbits w : Nat} {cw : CodeWord} (h : tableWord nbits w = some cw) (s : State) :
    s.withFetchWord nbits w = placeWord s cw := by
  rw [State.withFetchWord, h]

/-- The codes that select an operation are the codes of the phases (R24, R97, R108). -/
theorem isOk_decode_opcode (c : BitVec 4) : (decode (.opcode c)).isOk = (Phase.ofCode c).isSome := by revert c; decide

theorem exists_phase_of_decode {c : BitVec 4} {i : Instr} (h : decode (.opcode c) = .ok i) : ∃ p : Phase, p.code = c := by
  have hsome : (Phase.ofCode c).isSome = true := by rw [← isOk_decode_opcode, h]; rfl
  obtain ⟨p, hp⟩ := Option.isSome_iff_exists.mp hsome
  exact ⟨p, (Phase.ofCode_eq_some_iff c p).mp hp⟩

/-- A placed OPCODE runs in the state it was placed in but for PHASE. -/
theorem step_placeWord_opcode (s : State) (p : Phase) :
    step (placeWord s (.opcode p.code)) = exec (Phase.operation p) { s with phase := p } := by
  rw [placeWord, (Phase.ofCode_eq_some_iff p.code p).mpr rfl]
  exact step_core _ s.inputs rfl

theorem step_placeWord_ctrlword (s : State) (v : Word) : step (placeWord s (.ctrlword v)) = runWord (.ctrlword v) s :=
  step_writeCtrl _ v s.inputs rfl

theorem step_placeWord_fn (s : State) (f : FnWord) : step (placeWord s (.fn f)) = runWord (.fn f) s :=
  step_eval _ f s.inputs rfl

/-- Settles O5: by the kind of the word. Only an OPCODE is placed in PHASE; a CTRLWORD and a function's word are placed in
the inputs, which the step uses up. -/
theorem placedTableWordRunsNext : Obligations.PlacedTableWordRunsNext := by
  intro s nbits w i h
  obtain ⟨cw, htable, hdec⟩ := (decodeTableWord_eq_some_iff nbits w i).mp h
  rw [withFetchWord_of_tableWord htable]
  cases cw with
  | opcode c =>
    obtain ⟨p, rfl⟩ := exists_phase_of_decode hdec
    refine .inr ⟨p, (encode_of_decode _ _ hdec).2, ?_⟩
    rw [step_placeWord_opcode, operation_of_decode hdec]
  | ctrlword v => exact .inl ((step_placeWord_ctrlword s v).trans (runWord_of_decode hdec s))
  | fn f => exact .inl ((step_placeWord_fn s f).trans (runWord_of_decode hdec s))

end Sys2Proof.Machine

namespace Sys2Proof.Machine

/-! The colour decoder (R103, R130 to R132; that a function's word runs as a step is log 7). -/

theorem exec_scale5 (v : BitVec 5) (s : State) :
    exec (.scale5 v) s = .next { s with fnOut := .channel (scale5 v) } := rfl

theorem exec_cvt555 (p : BitVec 16) (s : State) :
    exec (.cvt555 p) s = .next { s with fnOut := .colour (cvt555 p) } := rfl

/-- Settles O6: the channel of R130 fits in 8 bits. -/
theorem scale5IsTruncatedScaling : Obligations.Scale5IsTruncatedScaling := fun v s =>
  ⟨scale5 v, exec_scale5 v s, scale5_toNat v⟩

/-- 255 is 8 × 31 + 7: what scaling adds to 8v is 7v div 31, which is at most 7. -/
theorem scale5_toNat_eq_add (v : BitVec 5) : (scale5 v).toNat = 8 * v.toNat + 7 * v.toNat / 31 := by
  rw [scale5_toNat, show v.toNat * 255 = 7 * v.toNat + 31 * (8 * v.toNat) by omega,
    Nat.add_mul_div_left _ _ (by decide), Nat.add_comm]

theorem scale5_mono {v w : BitVec 5} (h : v.toNat ≤ w.toNat) : (scale5 v).toNat ≤ (scale5 w).toNat := by
  rw [scale5_toNat, scale5_toNat]
  gcongr

theorem scale5_bounds (v : BitVec 5) : 8 * v.toNat ≤ (scale5 v).toNat ∧ (scale5 v).toNat ≤ 8 * v.toNat + 7 := by
  have hv := v.isLt
  have hadd : 7 * v.toNat / 31 ≤ 7 := by omega
  rw [scale5_toNat_eq_add]
  exact ⟨Nat.le_add_right _ _, Nat.add_le_add_left hadd _⟩

/-- The bounds of two values that differ do not meet, so a channel tells its value. -/
theorem scale5_injective : Function.Injective scale5 := by
  intro v w h
  have hv := scale5_bounds v
  have hw := scale5_bounds w
  rw [← h] at hw
  exact BitVec.eq_of_toNat_eq (by omega)

/-- Settles O7: order, end values, bounds and injectivity of SCALE5, each by its own lemma (R132). -/
theorem scale5IsMonotoneAndBounded : Obligations.Scale5IsMonotoneAndBounded :=
  ⟨fun _ _ => scale5_mono, scale5_toNat 31, scale5_toNat 0, scale5_bounds, fun _ _ h => scale5_injective h⟩

theorem r5_toNat (p : BitVec 16) : (r5 p).toNat = p.toNat / 1024 % 32 := by
  simp [r5, Nat.shiftRight_eq_div_pow]

theorem g5_toNat (p : BitVec 16) : (g5 p).toNat = p.toNat / 32 % 32 := by
  simp [g5, Nat.shiftRight_eq_div_pow]

theorem b5_toNat (p : BitVec 16) : (b5 p).toNat = p.toNat % 32 := by
  simp [b5]

/-- A field of five bits below bit 15 is the same without bit 15. -/
theorem extractLsb'_and_0x7FFF (p : BitVec 16) {start : Nat} (h : start + 5 ≤ 15) :
    (p &&& 0x7FFF).extractLsb' start 5 = p.extractLsb' start 5 := by
  have hmask : ∀ k < 15, BitVec.getLsbD (0x7FFF : BitVec 16) k = true := by decide
  ext i hi
  rw [BitVec.getElem_extractLsb', BitVec.getElem_extractLsb', BitVec.getLsbD_and, hmask (start + i) (by omega),
    Bool.and_true]

/-- Bit 15 is in none of the three fields, so CVT555 does not see it (R103, R131). -/
theorem cvt555_and_0x7FFF (p : BitVec 16) : cvt555 (p &&& 0x7FFF) = cvt555 p := by
  unfold cvt555 r5 g5 b5
  rw [extractLsb'_and_0x7FFF p (by decide), extractLsb'_and_0x7FFF p (by decide), extractLsb'_and_0x7FFF p (by decide)]

/-- Settles O8: each channel is its scaled field, and no field holds bit 15. -/
theorem cvt555ConvertsTheThreeFields : Obligations.Cvt555ConvertsTheThreeFields := by
  intro p s
  refine ⟨cvt555 p, exec_cvt555 p s, ?_, ?_, ?_, ?_⟩
  · rw [cvt555, scale5_toNat, r5_toNat]
  · rw [cvt555, scale5_toNat, g5_toNat]
  · rw [cvt555, scale5_toNat, b5_toNat]
  · rw [exec_cvt555, exec_cvt555, cvt555_and_0x7FFF]

end Sys2Proof.Machine

namespace Sys2Proof.Machine

/-! Every step keeps the phase invariant (R183, R148, R233). -/

/-- The phase invariant reads neither what is outside the core nor the model's own fields, and in a halt state neither SRC
nor SRC_LEN (R31, R35). -/
theorem RunInv.of_outside {s : State} {src : Memory 8} {srcLen : Word} {sinkOk : Bool} {inputs : List Input}
    {reply : HostReply} {f : FnResult} {n : Nat} (hi : RunInv s)
    (hs : (src = s.src ∧ srcLen = s.srcLen) ∨ Halted s) :
    RunInv { s with src := src, srcLen := srcLen, sinkOk := sinkOk, inputs := inputs, hostReply := reply, fnOut := f,
                    freeCount := n } :=
  hi.of_same rfl rfl rfl rfl rfl rfl rfl rfl rfl rfl rfl rfl rfl hs

/-- The core's turn keeps the phase invariant: in a halt state it changes nothing, and in a run it raises or advances. -/
theorem RunInv.coreTurn {s t : State} (hi : RunInv s) (h : exec (Phase.operation s.phase) s = .next t) : RunInv t := by
  by_cases hh : Halted s
  · obtain rfl := Host.Outcome.next.inj ((halted_exec s hh).symm.trans h)
    exact hi
  by_cases hr : ∃ e, Raises s e
  · obtain ⟨e, he⟩ := hr
    obtain rfl := Host.Outcome.next.inj ((exec_of_raises he).symm.trans h)
    exact he.runInv hi
  · exact hi.advance hh (not_exists.mp hr) h

/-- Settles O39: by the kinds of step. The core's turn raises or advances, START and reset set up the invariant afresh, the
host's writes reach SRC and SRC_LEN in a halt state only, and the other inputs touch nothing the invariant reads. -/
theorem everyStepKeepsRunInv : Obligations.EveryStepKeepsRunInv := by
  intro s t hi h
  rcases step_cases s t h with ⟨u, hu, h⟩ | ⟨-, rest, -, ht⟩ | ⟨ok, rest, -, rfl⟩ | ⟨v, rest, -, hstart⟩ |
    ⟨n, v, rest, -, -, hcsr⟩ | ⟨a, b, rest, -, hsrc⟩ | ⟨-, rest, -, ht⟩ | ⟨-, rest, -, ht⟩ | ⟨rest, -, rfl⟩
  · have hiu : RunInv u := by
      rcases hu with ⟨rfl, -⟩ | ⟨rest, -, rfl⟩
      · exact hi
      · exact hi.of_outside (.inl ⟨rfl, rfl⟩)
    exact hiu.coreTurn h
  · rw [ht]; exact hi.of_outside (.inl ⟨rfl, rfl⟩)
  · exact hi.of_outside (.inl ⟨rfl, rfl⟩)
  · rcases hstart with ⟨-, -, rfl⟩ | rfl
    · exact startRun_runInv _
    · exact hi.of_outside (.inl ⟨rfl, rfl⟩)
  · rcases hcsr with ⟨-, hh, rfl⟩ | rfl
    · exact hi.of_outside (.inr hh)
    · exact hi.of_outside (.inl ⟨rfl, rfl⟩)
  · rcases hsrc with ⟨hh, rfl⟩ | rfl
    · exact hi.of_outside (.inr hh)
    · exact hi.of_outside (.inl ⟨rfl, rfl⟩)
  · rw [ht]; exact hi.of_outside (.inl ⟨rfl, rfl⟩)
  · rw [ht]; exact hi.of_outside (.inl ⟨rfl, rfl⟩)
  · exact RunInv.of_outside runInvHoldsAtReset (.inl ⟨rfl, rfl⟩)

end Sys2Proof.Machine

namespace Sys2Proof.Machine

/-! The texture parser (R140 to R147): each operation's check, and the whole next state when it passes. -/

/-- A product that is not negative is written exactly (R143). -/
theorem pixelCount_of_nonneg {w h : Word} (hn : 0 ≤ s32 w * s32 h) : (pixelCount w h : Int) = s32 w * s32 h := by
  rw [pixelCount, if_pos hn, Int.toNat_of_nonneg hn]

/-- Settles O15: SIZE writes the pixel count and its half, and the bounds are those of legal dimensions (R9). -/
theorem sizeMultipliesExactly : Obligations.SizeMultipliesExactly := by
  intro s
  refine ⟨pixelCount s.width s.height, rfl, pixelCount_of_nonneg, fun hw hw' hh hh' => ?_⟩
  obtain ⟨-, hpos, hle⟩ := pixelCount_legal s.width s.height ⟨hw, hw'⟩ ⟨hh, hh'⟩
  exact ⟨hpos, hle, by omega⟩

/-- LDPIX on a short stream raises before it copies (R144). -/
theorem exec_ldpix_of_short {s : State} (h : s.srcLen.toNat < 24 + s.dataSize) :
    exec .ldpix s = .next (raise .truncatedData s) := if_pos h

/-- LDPIX on a stream that is long enough is its loop (R144). -/
theorem exec_ldpix_of_long {s : State} (h : 24 + s.dataSize ≤ s.srcLen.toNat) :
    exec .ldpix s = finish .ldpal (forUp copyPixByte s.dataSize 0 s) := if_neg (Nat.not_lt.mpr h)

/-- Settles O16: the check decides between `raise` and the loop, and the loop writes PIX alone. -/
theorem ldpixCopiesThePackedBytes : Obligations.LdpixCopiesThePackedBytes := by
  intro s
  refine ⟨exec_ldpix_of_short, fun hlen hloaded => ?_⟩
  obtain ⟨m, hloop, hcopied, hrest⟩ := copyPix_loop s hloaded
  refine ⟨m, ?_, hcopied, hrest⟩
  rw [exec_ldpix_of_long hlen, hloop]
  rfl

/-- R69 without the subtraction, in one number. -/
theorem regionsOverlap_iff (s : State) : regionsOverlap s ↔ s.srcLen.toNat < 56 + s.dataSize := by
  simp only [regionsOverlap, Config.hdrSize, Config.palBytes]
  omega

/-- LDPAL raises when OVERLAP_CHECK = 1 and the regions overlap (R145). -/
theorem ldpalWith_of_overlap {c : Params} {s : State} (hc : c.overlapCheck = true)
    (h : s.srcLen.toNat < 56 + s.dataSize) : ldpalWith c s = .next (raise .truncatedPalette s) :=
  if_pos ⟨hc, (regionsOverlap_iff s).mpr h⟩

/-- LDPAL is its loop when OVERLAP_CHECK = 0 or the regions do not overlap (R145). -/
theorem ldpalWith_of_passed {c : Params} {s : State} (h : c.overlapCheck = false ∨ 56 + s.dataSize ≤ s.srcLen.toNat) :
    ldpalWith c s = finish .unpack (forUp loadPalEntry 16 0 s) := by
  refine if_neg fun ⟨hc, ho⟩ => ?_
  rw [regionsOverlap_iff] at ho
  rcases h with h | h
  · rw [hc] at h
    cases h
  · omega

/-- Settles O18: the check decides between `raise` and the loop, and the loop writes PAL alone. -/
theorem ldpalFollowsOverlapCheck : Obligations.LdpalFollowsOverlapCheck := by
  refine ⟨fun _ => rfl, rfl, fun c s => ⟨ldpalWith_of_overlap, fun b hpassed hlen hloaded => ?_⟩⟩
  obtain ⟨pal, hloop, hpal⟩ := loadPal_loop s b hlen hloaded
  refine ⟨pal, ?_, hpal⟩
  rw [ldpalWith_of_passed hpassed, hloop]
  rfl

/-- Settles O17: the case OVERLAP_CHECK = 1 of O18, where a stream that passes the check has its last 32 bytes. -/
theorem ldpalLoadsTheLastThirtyTwoBytes : Obligations.LdpalLoadsTheLastThirtyTwoBytes := by
  intro s
  obtain ⟨hhw, hcheck, hall⟩ := ldpalFollowsOverlapCheck
  obtain ⟨hraise, hload⟩ := hall Params.hw s
  rw [hhw]
  exact ⟨hraise hcheck, fun b hlen => hload b (.inr hlen) (by omega)⟩

/-- Settles O19: UNPACK's loop writes IDX alone, and IDX_LEN is set after it. -/
theorem unpackFillsTheIndexBuffer : Obligations.UnpackFillsTheIndexBuffer := by
  intro s hwritten
  obtain ⟨m, hloop, hnibbles, hrest⟩ := unpackByte_loop s hwritten
  refine ⟨m, ?_, fun k b hk hb => ?_, hrest⟩
  · rw [exec, execUnpack, unpackAll, hloop]
    rfl
  · rw [← lo_eq, ← hi_eq]
    exact hnibbles k b hk hb

theorem lo_toNat (b : Byte) : (lo b).toNat = b.toNat % 16 := by
  simp [lo_eq]

theorem hi_toNat (b : Byte) : (hi b).toNat = b.toNat / 16 := by
  have := b.isLt
  simp only [hi_eq, BitVec.extractLsb'_toNat, Nat.shiftRight_eq_div_pow]
  omega

/-- Two nibbles fit in a byte, so PACK truncates nothing (R146). -/
theorem pack_toNat (a c : Index) : (pack a c).toNat = a.toNat + 16 * c.toNat := by
  have := a.isLt
  have := c.isLt
  rw [pack, BitVec.toNat_ofNat, Nat.mod_eq_of_lt (by omega)]

theorem pack_lo_hi (b : Byte) : pack (lo b) (hi b) = b := by
  apply BitVec.eq_of_toNat_eq
  rw [pack_toNat, lo_toNat, hi_toNat, Nat.mod_add_div]

theorem lo_pack (a c : Index) : lo (pack a c) = a := by
  have := a.isLt
  apply BitVec.eq_of_toNat_eq
  rw [lo_toNat, pack_toNat]
  omega

theorem hi_pack (a c : Index) : hi (pack a c) = c := by
  have := a.isLt
  apply BitVec.eq_of_toNat_eq
  rw [hi_toNat, pack_toNat]
  omega

/-- UNPK of a packed pair gives the pair back (R146). -/
theorem unpk_pack (a c : Index) : unpk (pack a c) = (a, c) := Prod.ext (lo_pack a c) (hi_pack a c)

theorem exec_unpk (b : Byte) (s : State) :
    exec (.unpk b) s = .next { s with fnOut := .pair (unpk b).1 (unpk b).2 } := rfl

/-- Settles O9: the two nibbles by arithmetic, and both inverse laws (R146). -/
theorem unpkGivesLowNibbleFirst : Obligations.UnpkGivesLowNibbleFirst :=
  ⟨fun b s => ⟨lo b, hi b, exec_unpk b s, lo_toNat b, hi_toNat b, pack_lo_hi b⟩,
    fun a c s => by rw [exec_unpk, unpk_pack], pack_toNat⟩

/-- Settles O12: CHKLEN's check decides between `raise` and `goto`. -/
theorem chklenChecksTheLength : Obligations.ChklenChecksTheLength := fun _ =>
  ⟨fun h => if_pos h, fun h => if_neg (Nat.not_lt.mpr h)⟩

/-- RDHDR's work over written bytes (R141). -/
theorem readHeader_of_fields {s : State} {w h : Word} (hw : fld32 s.src 8 = .ok w) (hh : fld32 s.src 12 = .ok h) :
    readHeader s = .ok { s with width := w, height := h, hdrValid := true } := by
  simp only [readHeader, Config.offWidth, Config.offHeight, hw, hh]

/-- Settles O13: both fields are read from their four bytes each. -/
theorem rdhdrReadsTheTwoFields : Obligations.RdhdrReadsTheTwoFields := by
  intro s b0 b1 b2 b3 c0 c1 c2 c3 hb0 hb1 hb2 hb3 hc0 hc1 hc2 hc3
  rw [exec, execRdhdr, readHeader_of_fields (fld32_of_reads hb0 hb1 hb2 hb3) (fld32_of_reads hc0 hc1 hc2 hc3)]
  rfl

/-- Settles O14: CHKDIM's check decides between `raise` and `goto`, and legal dimensions pass it. -/
theorem chkdimChecksTheDimensions : Obligations.ChkdimChecksTheDimensions := fun _ =>
  ⟨fun h => if_pos h, fun h => if_neg (by simp only [s32, Config.maxDim]; omega)⟩

end Sys2Proof.Machine

namespace Sys2Proof.Machine

/-! The bitmap encoder (R160 to R165): what each operation appends or answers, as the whole next state. -/

/-- Settles O20: EMITHDR appends the bytes of its header, and these are the bytes R96 lists. -/
theorem emithdrAppendsTheHeader : Obligations.EmithdrAppendsTheHeader := by
  intro s
  obtain ⟨m, happended, hheader, hrest, -⟩ := emitHeader_spec Params.hw s
  rw [headerList_hw] at hheader
  refine ⟨m, ?_, hheader, hrest⟩
  rw [exec, execEmithdr, emithdrWith, happended]
  rfl

/-- The key colour is black, and every other index is looked up in the palette (R162). -/
theorem resolve_hw (i : Index) (pal : Vector RGB 16) :
    resolve Params.hw i pal =
      if i = 0 then { r := 0, g := 0, b := 0 } else pal[i.toNat]'(by have := i.isLt; omega) := rfl

/-- EMITPIX ends with the pixels appended when the elements that it looks up are written: those below both IDX_LEN and
WIDTH × HEIGHT (R161, R163). -/
theorem exec_emitpix_of_written {s : State} (hw : ∀ n, n < s.idxLen → n < loopCount s.width * loopCount s.height →
      (Memory.read s.idx n).isSome) :
    ∃ u, exec .emitpix s = .next (goto .commit u) ∧
      PixelsAppended s (shownColour s) (loopCount s.width * loopCount s.height) u := by
  obtain ⟨u, hloop, happended⟩ := emitPixels_loop Params.hw s (shownColour s)
    fun p hp => ⟨_, idxAt_indexOf fun hlt => hw _ hlt (shown_lt hp), rfl⟩
  exact ⟨u, by rw [exec, execEmitpix, emitpixWith, hloop, finish], happended⟩

/-- The index of a flat pixel whose element, where IDX_LEN reaches it, is known (R161). -/
theorem indexOf_of_read {s : State} {n : Nat} {i : Index} (h : n < s.idxLen → Memory.read s.idx n = some i) :
    indexOf s n = if n < s.idxLen then i else 0 := by
  by_cases hn : n < s.idxLen
  · rw [indexOf, if_pos hn, if_pos hn, h hn, Option.getD_some]
  · rw [indexOf, if_neg hn, if_neg hn]

/-- Settles O21: the loops append one colour per output pixel, that of the index at the flat pixel number it shows. -/
theorem emitpixSerialisesBottomUp : Obligations.EmitpixSerialisesBottomUp := by
  intro s ix hwritten
  obtain ⟨u, hnext, m, rfl, hpixels, hrest⟩ := exec_emitpix_of_written fun n hlt hn =>
    Option.isSome_iff_exists.mpr ⟨ix n, hwritten n hlt hn⟩
  refine ⟨m, hnext, fun p hp n i c hn hi hc => ?_, hrest⟩
  have hindex : indexOf s n = i := by
    rw [hi]
    exact indexOf_of_read fun hlt => hwritten n hlt (hn ▸ shown_lt hp)
  have hcolour : shownColour s p = c := by
    rw [hc, ← resolve_hw, ← hindex, hn]
    rfl
  exact hcolour ▸ hpixels p hp

/-- IDXAT put to use by itself, when its look-up is answered (R161). -/
theorem exec_idxat_of_ok {n : BitVec 24} {s : State} {i : Index} (h : idxAt Params.hw n.toNat s = .ok i) :
    exec (.idxat n) s = .next { s with fnOut := .index i } := by
  rw [exec, execIdxat, h]

/-- Settles O10: the look-up reads below IDX_LEN and answers MISSING_INDEX = 0 past it. -/
theorem idxatAnswersPastTheEnd : Obligations.IdxatAnswersPastTheEnd := by
  refine fun n s => ⟨fun i hlt hread => exec_idxat_of_ok ?_, fun hge => exec_idxat_of_ok ?_⟩
  · rw [idxAt, if_pos hlt, readCell_of_read hread]
  · rw [idxAt, if_neg (Nat.not_lt.mpr hge)]
    rfl

theorem exec_resolve (i : Index) (s : State) :
    exec (.resolve i) s = .next { s with fnOut := .colour (resolve Params.hw i s.pal) } := rfl

/-- Settles O11: index 0 is the key, and every other index is below 16 (R162). -/
theorem resolveSubstitutesTheKey : Obligations.ResolveSubstitutesTheKey := by
  refine fun i s => ⟨fun hkey => ?_, fun _ hne => ?_⟩
  · rw [exec_resolve, resolve_hw, if_pos hkey]
  · rw [exec_resolve, resolve_hw, if_neg hne]

/-- Settles O22: COMMIT's one test is the sink's answer. -/
theorem commitAsksTheSink : Obligations.CommitAsksTheSink := fun _ =>
  ⟨fun haccepted => if_pos haccepted, fun hrefused => if_neg (Bool.eq_false_iff.mp hrefused)⟩

/-- Settles O33: the turn of a new answer is the sink's, with the input used up. -/
theorem sinkAnswerIsAnInput : Obligations.SinkAnswerIsAnInput := step_sink

end Sys2Proof.Machine

namespace Sys2Proof.Machine

/-! How PHASE moves (R181, R185), and how long a run takes (R184). -/

/-- The operations whose check can raise (R200 to R204). -/
theorem Raises.phase {s : State} {e : ErrCode} (h : Raises s e) :
    s.phase = .chklen ∨ s.phase = .chkdim ∨ s.phase = .ldpix ∨ s.phase = .ldpal ∨ s.phase = .commit := by
  cases h with
  | chklen hp | chkdim hp | ldpix hp | ldpal hp | commit hp => simp [hp]

/-- What the core's turn does to PHASE: nothing in a halt state; in a run it advances by one, or raises. -/
theorem coreTurn_phase {s t : State} (h : exec (Phase.operation s.phase) s = .next t) :
    (Halted s ∧ t = s) ∨ (¬ Halted s ∧ phaseNum t = phaseNum s + 1) ∨ (∃ e, Raises s e ∧ t = raise e s) := by
  by_cases hh : Halted s
  · exact .inl ⟨hh, Host.Outcome.next.inj (h.symm.trans (halted_exec s hh))⟩
  by_cases hr : ∃ e, Raises s e
  · obtain ⟨e, he⟩ := hr
    exact .inr (.inr ⟨e, he, Host.Outcome.next.inj (h.symm.trans (exec_of_raises he))⟩)
  · exact .inr (.inl ⟨hh, (exec_advances hh (not_exists.mp hr) h).num⟩)

/-- Settles O40: by the kinds of step. The core's turn advances or raises, an accepted START and a reset are the other two
ways, and every other input leaves PHASE as it is. -/
theorem phaseChangesOnlyAsListed : Obligations.PhaseChangesOnlyAsListed := by
  intro s t h hne
  rcases step_cases s t h with ⟨u, hu, hcore⟩ | ⟨-, rest, -, ht⟩ | ⟨ok, rest, -, ht⟩ | ⟨v, rest, hi, hstart⟩ |
    ⟨n, v, rest, -, -, hcsr⟩ | ⟨a, b, rest, -, hsrc⟩ | ⟨-, rest, -, ht⟩ | ⟨-, rest, -, ht⟩ | ⟨rest, hi, ht⟩
  · have hphase : u.phase = s.phase := by rcases hu with ⟨rfl, -⟩ | ⟨rest, -, rfl⟩ <;> rfl
    have hnum : phaseNum u = phaseNum s := by rw [phaseNum, hphase]
    rcases coreTurn_phase hcore with ⟨-, rfl⟩ | ⟨hb, hadv⟩ | ⟨e, he, rfl⟩
    · exact absurd hphase hne
    · obtain ⟨h1, h10⟩ := (busy_num u).mp hb
      exact .inl ⟨hnum ▸ h1, hnum ▸ h10, hnum ▸ hadv⟩
    · exact .inr (.inl ⟨rfl, hphase ▸ he.phase⟩)
  · exact absurd (by rw [ht]; rfl) hne
  · exact absurd (by rw [ht]; rfl) hne
  · rcases hstart with ⟨hv, hh, rfl⟩ | rfl
    · exact .inr (.inr (.inl ⟨rfl, hh, v, rest, hi, hv⟩))
    · exact absurd rfl hne
  · rcases hcsr with ⟨-, -, rfl⟩ | rfl <;> exact absurd rfl hne
  · rcases hsrc with ⟨-, rfl⟩ | rfl <;> exact absurd rfl hne
  · exact absurd (by rw [ht]; rfl) hne
  · exact absurd (by rw [ht]; rfl) hne
  · exact .inr (.inr (.inr ⟨by rw [ht]; rfl, rest, hi⟩))

/-- With nothing else to come a run ends within as many steps as PHASE has codes left before DONE. -/
theorem RunInv.ends_within {n : Nat} {s : State} (hi : RunInv s) (hl : SrcLoaded s) (hin : s.inputs = [])
    (hb : ¬ Halted s) (hn : phaseNum s + n = 11) :
    ∃ k t, k ≤ n ∧ Host.Core.run Sys2Proof.core k s = .next t ∧ (t.phase = .done ∨ t.phase = .fail) := by
  induction n generalizing s with
  | zero =>
    obtain ⟨-, h10⟩ := (busy_num s).mp hb
    omega
  | succ n ih =>
    obtain ⟨u, hu⟩ := hi.exec_completes hl
    have hrun := fun k => run_succ (k := k) ((step_core_empty s hin).trans hu)
    rcases coreTurn_phase hu with ⟨hh, -⟩ | ⟨-, hadv⟩ | ⟨e, -, hraise⟩
    · exact absurd hh hb
    · by_cases hub : Halted u
      · have hdone : u.phase = .done := (phaseNum_eq_iff u .done).mp <| by
          have hcode := (halted_num u).mp hub
          change phaseNum u = 11
          omega
        exact ⟨1, u, by omega, hrun 0, .inl hdone⟩
      · obtain ⟨hsrc, hlen, hins, -⟩ := exec_keeps _ s u hu
        have hul : SrcLoaded u := by rw [SrcLoaded, hsrc, hlen]; exact hl
        obtain ⟨k, t, hk, ht, hend⟩ := ih (hi.coreTurn hu) hul (hins.trans hin) hub (by omega)
        exact ⟨k + 1, t, Nat.succ_le_succ hk, (hrun k).trans ht, hend⟩
    · exact ⟨1, u, by omega, hrun 0, .inr (by rw [hraise]; rfl)⟩

/-- Settles O45: each turn ends the run in FAIL or advances PHASE, which is at least 1, and 11 is DONE. -/
theorem everyRunEndsWithinTenSteps : Obligations.EveryRunEndsWithinTenSteps := by
  intro s hi hl hin hb
  obtain ⟨h1, h10⟩ := (busy_num s).mp hb
  obtain ⟨k, t, hk, hrun, hend⟩ := hi.ends_within (n := 11 - phaseNum s) hl hin hb (by omega)
  exact ⟨k, t, by omega, hrun, hend⟩

/-- Settles O46: a launched run stays on course until its last turn, and ends there. -/
theorem runTakesTheStatedNumberOfSteps : Obligations.RunTakesTheStatedNumberOfSteps := by
  intro s is rest r h
  obtain ⟨hbusy, t, hrun, hrest, hend⟩ := h.run
  exact ⟨hbusy, t, hrun, hrest, hend.halted⟩

end Sys2Proof.Machine

namespace Sys2Proof.Machine

/-! The formulas of the result read the stream at `Tex.MayBeRead` only (R64, R65, R68, R188). -/

section
variable {src src' : Memory 8}

theorem byteAt_congr {a : Nat} (h : Memory.read src' a = Memory.read src a) : Tex.byteAt src' a = Tex.byteAt src a := by
  rw [Tex.byteAt, h, Tex.byteAt]

theorem word32_congr {a : Nat} (h : ∀ j, j < 4 → Memory.read src' (a + j) = Memory.read src (a + j)) :
    Tex.word32 src' a = Tex.word32 src a := by
  rw [Tex.word32, byteAt_congr (a := a) (h 0 (by decide)), byteAt_congr (h 1 (by decide)), byteAt_congr (h 2 (by decide)),
    byteAt_congr (h 3 (by decide)), Tex.word32]

/-- An index is four bits wide. -/
theorem indexAt_lt (n : Nat) : Tex.indexAt src n < 16 := by
  have hbyte := byteAt_lt src (24 + n / 2)
  rw [Tex.indexAt]
  split
  · split <;> omega
  · decide

/-- A run ends without error only when every check of R208 passes. -/
theorem checks_of_noError {l : Nat} {ok : Bool} (hv : Tex.verdict src l ok = .noError) :
    32 ≤ l ∧ Tex.LegalHeader src ∧ 56 + Tex.dataSize src ≤ l := by
  by_cases h32 : l < 32
  · rw [(end_of_short ok h32).2] at hv
    cases hv
  by_cases hd : Tex.LegalHeader src
  · by_cases hp : l < 24 + Tex.dataSize src
    · rw [(end_of_short_pixels ok (by omega) hd hp).2] at hv
      cases hv
    by_cases ho : l < 56 + Tex.dataSize src
    · rw [(end_of_overlap ok (by omega) hd (by omega) ho).2] at hv
      cases hv
    exact ⟨by omega, hd, by omega⟩
  · rw [(end_of_illegal ok (by omega) hd).2] at hv
    cases hv

/-- OUT is determined below the length of the bitmap (R70, R164). -/
theorem outputIsBitmap_unique {out out' : Memory 8} {l : Nat} (h : Tex.OutputIsBitmap src l out)
    (h' : Tex.OutputIsBitmap src l out') :
    ∀ a, a < 54 + 3 * Tex.npix src → Memory.read out' a = Memory.read out a := by
  intro a ha
  obtain ⟨hhdr, hpix⟩ := h
  obtain ⟨hhdr', hpix'⟩ := h'
  by_cases h54 : a < 54
  · rw [hhdr a h54, hhdr' a h54]
  obtain ⟨p, hp, hchannel⟩ : ∃ p, p < Tex.npix src ∧ (a = 54 + 3 * p ∨ a = 55 + 3 * p ∨ a = 56 + 3 * p) :=
    ⟨(a - 54) / 3, by omega, by omega⟩
  obtain ⟨hr, hg, hb⟩ := hpix p hp
  obtain ⟨hr', hg', hb'⟩ := hpix' p hp
  rcases hchannel with rfl | rfl | rfl
  · rw [hr, hr']
  · rw [hg, hg']
  · rw [hb, hb']

end

section
variable {src src' : Memory 8} {l : Nat}
  (hread : ∀ a, Tex.MayBeRead src l a → Memory.read src' a = Memory.read src a)
include hread

/-- The header fields are read in every stream of 32 bytes or more (R140, R141). -/
theorem header_congr (h32 : 32 ≤ l) : Tex.width src' = Tex.width src ∧ Tex.height src' = Tex.height src := by
  have hfield : ∀ a, 8 ≤ a → a + 3 < 16 → Tex.word32 src' a = Tex.word32 src a := fun a h8 h16 =>
    word32_congr fun j hj => hread _ ⟨h32, .inl ⟨by omega, by omega⟩⟩
  rw [Tex.width, Tex.height, hfield 8 (by decide) (by decide), hfield 12 (by decide) (by decide)]
  exact ⟨rfl, rfl⟩

theorem sizes_congr (h32 : 32 ≤ l) : Tex.npix src' = Tex.npix src ∧ Tex.dataSize src' = Tex.dataSize src := by
  obtain ⟨hw, hh⟩ := header_congr hread h32
  rw [Tex.dataSize, Tex.npix, hw, hh]
  exact ⟨rfl, rfl⟩

theorem verdict_congr (ok : Bool) : Tex.verdict src' l ok = Tex.verdict src l ok := by
  by_cases h32 : l < 32
  · rw [(end_of_short ok h32).2, (end_of_short ok h32).2]
  · obtain ⟨hw, hh⟩ := header_congr hread (Nat.not_lt.mp h32)
    obtain ⟨-, hd⟩ := sizes_congr hread (Nat.not_lt.mp h32)
    rw [Tex.verdict, hw, hh, hd, Tex.verdict]

/-- The pixel region is read when it lies within the stream (R144). -/
theorem indexAt_congr (h32 : 32 ≤ l) (hd : Tex.LegalHeader src) (hp : 24 + Tex.dataSize src ≤ l) (n : Nat) :
    Tex.indexAt src' n = Tex.indexAt src n := by
  rw [Tex.indexAt, Tex.indexAt, (sizes_congr hread h32).2]
  split
  next hn => rw [byteAt_congr (hread (24 + n / 2) ⟨h32, .inr (.inl ⟨hd, hp, by omega, by omega⟩)⟩)]
  next => rfl

/-- The palette region is read when it does not overlap the pixel region (R145). -/
theorem colourOf_congr (hd : Tex.LegalHeader src) (ho : 56 + Tex.dataSize src ≤ l) {i : Nat} (hi : i < 16) :
    Tex.colourOf src' l i = Tex.colourOf src l i := by
  have hpal : ∀ a, l - 32 ≤ a → a < l → Tex.byteAt src' a = Tex.byteAt src a := fun a hlo hhi =>
    byteAt_congr (hread a ⟨by omega, .inr (.inr ⟨hd, ho, hlo, hhi⟩)⟩)
  rw [Tex.colourOf, Tex.colourOf, Tex.palWordAt, hpal (l - 32 + 2 * i) (by omega) (by omega),
    hpal (l - 31 + 2 * i) (by omega) (by omega), Tex.palWordAt]

theorem outputIsBitmap_congr (hd : Tex.LegalHeader src) (ho : 56 + Tex.dataSize src ≤ l) (out : Memory 8) :
    Tex.OutputIsBitmap src' l out ↔ Tex.OutputIsBitmap src l out := by
  have h32 : 32 ≤ l := by omega
  obtain ⟨hw, hh⟩ := header_congr hread h32
  have hpixel : ∀ p, Tex.pixelAt src' l p = Tex.pixelAt src l p := fun p => by
    rw [Tex.pixelAt, hw, hh, indexAt_congr hread h32 hd (by omega), colourOf_congr hread hd ho (indexAt_lt _), Tex.pixelAt]
  simp only [Tex.OutputIsBitmap, hw, hh, (sizes_congr hread h32).1, hpixel]

end

/-- Settles O48: the verdict and the bitmap are formulas over the bytes that a run reads, and the verdict and the bitmap fix
the result. -/
theorem resultDependsOnTheStreamOnly : Obligations.ResultDependsOnTheStreamOnly := by
  intro s s' is is' rest rest' r r' h h' hlen hsink hread
  obtain ⟨-, t, hrun, -, e⟩ := h.run
  obtain ⟨-, t', hrun', -, e'⟩ := h'.run
  have hv : Tex.verdict s'.src s'.srcLen.toNat (sinkAfter s'.sinkOk is') =
      Tex.verdict s.src s.srcLen.toNat (sinkAfter s.sinkOk is) := by
    rw [hlen, hsink]
    exact verdict_congr hread _
  have herr : t'.errCode = t.errCode := e'.errCode.trans (hv.trans e.errCode.symm)
  refine ⟨t, t', hrun, hrun', ?_⟩
  by_cases hok : Tex.verdict s.src s.srcLen.toNat (sinkAfter s.sinkOk is) = .noError
  · obtain ⟨h32, hd, ho⟩ := checks_of_noError hok
    obtain ⟨hp, hl, -, -, hbitmap⟩ := e.done hok
    obtain ⟨hp', hl', -, -, hbitmap'⟩ := e'.done (hv.trans hok)
    rw [hlen, outputIsBitmap_congr hread hd ho] at hbitmap'
    refine ⟨hp'.trans hp.symm, herr, by rw [hl', hl, (sizes_congr hread h32).1], fun a ha => ?_⟩
    exact outputIsBitmap_unique hbitmap hbitmap' a (hl ▸ ha)
  · obtain ⟨hp, hl⟩ := e.fail hok
    obtain ⟨hp', hl'⟩ := e'.fail (hv ▸ hok)
    exact ⟨hp'.trans hp.symm, herr, hl'.trans hl.symm, fun a ha => absurd (hl ▸ ha) (Nat.not_lt_zero a)⟩

end Sys2Proof.Machine

namespace Sys2Proof.Machine

/-! The halt states and START (R180, R182, R183). -/

/-- Settles O23: the halt states' operations are the identity, and PHASE selects them on the core's turn. -/
theorem haltStatesChangeNothing : Obligations.HaltStatesChangeNothing :=
  ⟨fun _ => ⟨rfl, rfl, rfl⟩, fun s hh hi => (step_core_empty s hi).trans (halted_exec s hh)⟩

/-- Settles O24: an accepted START is `startRun`. -/
theorem startBeginsARun : Obligations.StartBeginsARun := fun s _ hc hh =>
  ⟨startRun s, exec_start_accepted hh hc, by simp⟩

/-- A START in a run is dropped (R180). -/
theorem exec_start_dropped {s : State} (hb : ¬ Halted s) (ctrl : Word) : exec (.start ctrl) s = .next s := by
  rw [exec, execStart, (busy_iff s).mpr hb]
  exact if_neg (by simp)

/-- Settles O25: START's one condition is BUSY = 0, and a word with bit 0 = 0 selects no operation. -/
theorem startIsDroppedWhileBusy : Obligations.StartIsDroppedWhileBusy := by
  refine ⟨fun s ctrl h1 h10 => exec_start_dropped ((busy_num s).mpr ⟨h1, h10⟩) ctrl, fun s v rest hv hi => ?_⟩
  rw [step_writeCtrl s v rest hi, runWord_ctrlword, if_neg (Bool.eq_false_iff.mp hv)]
  rfl

end Sys2Proof.Machine

namespace Sys2Proof.Machine

/-! The entry to FAIL (R200 to R204, R210). -/

/-- A step is the core's turn, in the state with its input used up, or it keeps PHASE, starts a run or resets. -/
theorem step_coreTurn_or_phase {s t : State} (h : step s = .next t) :
    exec (Phase.operation s.phase) (withInputs s s.inputs.tail) = .next t ∨ t.phase = s.phase ∨
      t.phase = .chklen ∨ t.phase = .idle := by
  rcases step_cases s t h with ⟨u, hu, hcore⟩ | ⟨-, rest, -, ht⟩ | ⟨ok, rest, -, ht⟩ | ⟨v, rest, -, hstart⟩ |
    ⟨n, v, rest, -, -, hcsr⟩ | ⟨a, b, rest, -, hsrc⟩ | ⟨-, rest, -, ht⟩ | ⟨-, rest, -, ht⟩ | ⟨rest, -, ht⟩
  · have hturn : u = withInputs s s.inputs.tail := by
      rcases hu with ⟨rfl, hi⟩ | ⟨rest, hi, rfl⟩
      · rw [hi, List.tail_nil, ← hi]; rfl
      · rw [hi]; rfl
    rw [hturn] at hcore
    exact .inl hcore
  · exact .inr (.inl (by rw [ht]; rfl))
  · exact .inr (.inl (by rw [ht]; rfl))
  · rcases hstart with ⟨-, -, rfl⟩ | rfl
    · exact .inr (.inr (.inl rfl))
    · exact .inr (.inl rfl)
  · rcases hcsr with ⟨-, -, rfl⟩ | rfl <;> exact .inr (.inl rfl)
  · rcases hsrc with ⟨-, rfl⟩ | rfl <;> exact .inr (.inl rfl)
  · exact .inr (.inl (by rw [ht]; rfl))
  · exact .inr (.inl (by rw [ht]; rfl))
  · exact .inr (.inr (.inr (by rw [ht]; rfl)))

/-- FAIL's one entry is a raise on the core's turn: START and reset lead elsewhere, and a turn in a run that raises nothing
advances PHASE to DONE at most. -/
theorem step_enters_fail {s t : State} (h : step s = .next t) (hf : t.phase = .fail) (hn : s.phase ≠ .fail) :
    ∃ e, Raises (withInputs s s.inputs.tail) e ∧ t = raise e (withInputs s s.inputs.tail) := by
  rcases step_coreTurn_or_phase h with hcore | hsame | hstart | hreset
  · rcases coreTurn_phase (s := withInputs s s.inputs.tail) hcore with ⟨-, rfl⟩ | ⟨hb, hadv⟩ | hraise
    · exact absurd hf hn
    · obtain ⟨-, h10⟩ := (busy_num _).mp hb
      have h12 : phaseNum t = 12 := (phaseNum_eq_iff t .fail).mpr hf
      omega
    · exact hraise
  · exact absurd (hsame.symm.trans hf) hn
  · cases hstart.symm.trans hf
  · cases hreset.symm.trans hf

/-- Settles O41: FAIL is entered by a raise, and each of the five raises names its operation, its error and its condition. -/
theorem everyErrorHasItsCause : Obligations.EveryErrorHasItsCause := by
  intro s t h hf hn
  obtain ⟨e, he, rfl⟩ := step_enters_fail h hf hn
  refine ⟨rfl, ?_⟩
  cases he with
  | chklen hp hc => exact .inl ⟨hp, rfl, hc⟩
  | chkdim hp hc => exact .inr (.inl ⟨hp, rfl, hc⟩)
  | ldpix hp hc => exact .inr (.inr (.inl ⟨hp, rfl, hc⟩))
  | ldpal hp hc => exact .inr (.inr (.inr (.inl ⟨hp, rfl, hc⟩)))
  | commit hp hc => exact .inr (.inr (.inr (.inr ⟨hp, rfl, hc⟩)))

end Sys2Proof.Machine

namespace Sys2Proof.Machine

/-! Reset, and the host's reads of OUT (R230, R236, R38). -/

section
variable {a : Nat} {b : Byte} {s : State}

theorem readOut_of_written (hd : s.phase = .done) (ha : a < s.outLen) (hb : Memory.read s.out a = some b) :
    readOut a s = .next { s with hostReply := .byte b } := by
  rw [readOut, if_pos ⟨(doneFlag_iff s).mpr hd, ha⟩, readCell_of_read hb]

theorem readOut_not_readable (h : s.phase ≠ .done ∨ s.outLen ≤ a) : readOut a s = .refused (.outNotReadable a) := by
  refine if_neg fun ⟨hd, ha⟩ => ?_
  rcases h with hp | hl
  · exact hp ((doneFlag_iff s).mp hd)
  · exact absurd ha (Nat.not_lt.mpr hl)

end

/-- Settles O30: `readOut` in DONE below OUT_LEN, and anywhere else. -/
theorem hostReadsOutOnlyWhenDone : Obligations.HostReadsOutOnlyWhenDone := fun s a rest hi =>
  ⟨fun _ hd ha hb => (step_readOut s a rest hi).trans (readOut_of_written (s := withInputs s rest) hd ha hb),
    fun h => (step_readOut s a rest hi).trans (readOut_not_readable (s := withInputs s rest) h)⟩

/-- Settles O31: `assertReset` is the reset state but for what is outside the core. -/
theorem assertResetGivesTheResetState : Obligations.AssertResetGivesTheResetState := fun s rest hi =>
  ⟨assertReset (withInputs s rest), step_assertReset s rest hi, rfl, rfl, rfl, rfl, rfl, rfl,
    Memory.read_nil, Memory.read_nil, Memory.read_nil, Memory.read_nil, rfl, rfl⟩

/-- Settles O43: the core's turn completes in every phase of the invariant, and OUT is written below OUT_LEN. -/
theorem noStopUnderTheLaunchPremises : Obligations.NoStopUnderTheLaunchPremises := by
  intro s hi hl
  refine ⟨?_, fun a rest hin hd ha => ?_⟩
  · rintro (hin | ⟨rest, hin⟩)
    · rw [step_core_empty s hin]
      exact hi.exec_completes hl
    · rw [step_core s rest hin]
      exact (hi.of_outside (.inl ⟨rfl, rfl⟩)).exec_completes (s := withInputs s rest) hl
  · obtain ⟨b, hb⟩ := Option.isSome_iff_exists.mp (hi.outWritten a ha)
    exact ⟨_, (step_readOut s a rest hin).trans (readOut_of_written (s := withInputs s rest) hd ha hb)⟩

end Sys2Proof.Machine

namespace Sys2Proof.Machine

/-! The registers that hold no value in the spec's sense are not read (R233, R40, R180): the core's turn and the host's moves
from two states that differ in those registers alone. -/

/-- Two computations that may stop stop for the same reason, or complete with related results. -/
inductive Alike {α : Type} (R : α → α → Prop) : Except Fault α → Except Fault α → Prop
  | ok {x y : α} (h : R x y) : Alike R (.ok x) (.ok y)
  | error (e : Fault) : Alike R (.error e) (.error e)

/-- Two steps stop with the same fault or refusal, or lead to states that agree on what is written. -/
inductive StepsAlike : Host.Outcome State Fault Refusal → Host.Outcome State Fault Refusal → Prop
  | next {t t' : State} (h : AgreeOnWritten t t') : StepsAlike (.next t) (.next t')
  | fault (f : Fault) : StepsAlike (.fault f) (.fault f)
  | refused (r : Refusal) : StepsAlike (.refused r) (.refused r)

/-- An ascending loop takes related values to related values, if each round does; R is about the number of the round. -/
theorem forUp_alike {α : Type} {body : Nat → α → Except Fault α} (R : Nat → α → α → Prop) (count start : Nat) {x y : α}
    (hxy : R start x y) (hbody : ∀ k u v, R k u v → Alike (R (k + 1)) (body k u) (body k v)) :
    Alike (R (start + count)) (forUp body count start x) (forUp body count start y) := by
  induction count generalizing start x y with
  | zero => exact .ok hxy
  | succ n ih =>
    rw [forUp, forUp, show start + (n + 1) = start + 1 + n by omega]
    have round := hbody start x y hxy
    generalize body start x = u, body start y = v at round ⊢
    cases round with
    | ok h => exact ih (start + 1) h
    | error e => exact .error e

theorem finish_alike {R : State → State → Prop} {x y : Except Fault State} (p : Phase) (h : Alike R x y)
    (hR : ∀ t t', R t t' → AgreeOnWritten (goto p t) (goto p t')) : StepsAlike (finish p x) (finish p y) := by
  cases h with
  | ok h => exact .next (hR _ _ h)
  | error e => exact .fault e

theorem AgreeOnWritten.refl (s : State) : AgreeOnWritten s s :=
  ⟨rfl, fun _ => ⟨rfl, rfl⟩, fun _ _ => ⟨rfl, rfl⟩, fun _ _ => rfl⟩

theorem StepsAlike.refl (o : Host.Outcome State Fault Refusal) : StepsAlike o o := by
  cases o with
  | next t => exact .next (.refl t)
  | fault f => exact .fault f
  | refused r => exact .refused r

/-! States that agree: up to SIZE the sizes and the palette may differ, up to LDPAL the palette, and before RDHDR all five
registers. -/

theorem agreeOnWritten_until_size {t : State} (n d : Nat) (p : Vector RGB 16) (h : phaseNum t ≤ 4) :
    AgreeOnWritten t { t with npix := n, dataSize := d, pal := p } :=
  ⟨rfl, fun _ => ⟨rfl, rfl⟩, fun h5 => absurd h (by omega), fun h7 => absurd h (by omega)⟩

theorem agreeOnWritten_until_ldpal {t : State} (p : Vector RGB 16) (h : phaseNum t ≤ 6) :
    AgreeOnWritten t { t with pal := p } :=
  ⟨rfl, fun _ => ⟨rfl, rfl⟩, fun _ _ => ⟨rfl, rfl⟩, fun h7 => absurd h (by omega)⟩

section
variable {s s' : State}

/-- From CHKDIM to DONE the header registers are written (R26). -/
theorem AgreeOnWritten.eq_from_chkdim (h : AgreeOnWritten s s') (hi : RunInv s) (h3 : 3 ≤ phaseNum s)
    (h11 : phaseNum s ≤ 11) : s' = { s with npix := s'.npix, dataSize := s'.dataSize, pal := s'.pal } := by
  obtain ⟨hw, hh⟩ := h.header (hi.headerRead h3 h11)
  conv_lhs => rw [h.others, hw, hh]

/-- From LDPIX to DONE the sizes are written too. -/
theorem AgreeOnWritten.eq_from_ldpix (h : AgreeOnWritten s s') (hi : RunInv s) (h5 : 5 ≤ phaseNum s)
    (h11 : phaseNum s ≤ 11) : s' = { s with pal := s'.pal } := by
  obtain ⟨hn, hd⟩ := h.sizes h5 h11
  conv_lhs => rw [h.eq_from_chkdim hi (by omega) h11, hn, hd]

/-- From UNPACK to DONE every register is written. -/
theorem AgreeOnWritten.eq_from_unpack (h : AgreeOnWritten s s') (hi : RunInv s) (h7 : 7 ≤ phaseNum s)
    (h11 : phaseNum s ≤ 11) : s' = s := by
  rw [h.eq_from_ldpix hi (by omega) h11, h.palette h7 h11]

/-! What states that agree have in common, and the updates that keep them so. -/

theorem AgreeOnWritten.phase (h : AgreeOnWritten s s') : s'.phase = s.phase := by rw [h.others]

theorem AgreeOnWritten.hdrValid (h : AgreeOnWritten s s') : s'.hdrValid = s.hdrValid := by rw [h.others]

theorem AgreeOnWritten.outLen (h : AgreeOnWritten s s') : s'.outLen = s.outLen := by rw [h.others]

theorem AgreeOnWritten.srcLen (h : AgreeOnWritten s s') : s'.srcLen = s.srcLen := by rw [h.others]

theorem AgreeOnWritten.src (h : AgreeOnWritten s s') : s'.src = s.src := by rw [h.others]

theorem AgreeOnWritten.out (h : AgreeOnWritten s s') : s'.out = s.out := by rw [h.others]

theorem AgreeOnWritten.inputs (h : AgreeOnWritten s s') : s'.inputs = s.inputs := by rw [h.others]

theorem AgreeOnWritten.busy (h : AgreeOnWritten s s') : busy s' = busy s := by rw [h.others]; rfl

theorem AgreeOnWritten.doneFlag (h : AgreeOnWritten s s') : doneFlag s' = doneFlag s := by rw [h.others]; rfl

theorem AgreeOnWritten.status (h : AgreeOnWritten s s') : status s' = status s := by rw [h.others]; rfl

theorem AgreeOnWritten.startRun (h : AgreeOnWritten s s') : startRun s' = startRun s := by rw [h.others]; rfl

theorem AgreeOnWritten.assertReset (h : AgreeOnWritten s s') : assertReset s' = assertReset s := by rw [h.others]; rfl

theorem AgreeOnWritten.withInputs (h : AgreeOnWritten s s') (rest : List Input) :
    AgreeOnWritten (withInputs s rest) (withInputs s' rest) :=
  ⟨by rw [h.others]; rfl, h.header, h.sizes, h.palette⟩

theorem AgreeOnWritten.sinkAnswers (h : AgreeOnWritten s s') (ok : Bool) :
    AgreeOnWritten (sinkAnswers ok s) (sinkAnswers ok s') :=
  ⟨by rw [h.others]; rfl, h.header, h.sizes, h.palette⟩

theorem AgreeOnWritten.withSrc (h : AgreeOnWritten s s') (m : Memory 8) :
    AgreeOnWritten { s with src := m } { s' with src := m } :=
  ⟨by rw [h.others], h.header, h.sizes, h.palette⟩

theorem AgreeOnWritten.withSrcLen (h : AgreeOnWritten s s') (v : Word) :
    AgreeOnWritten { s with srcLen := v } { s' with srcLen := v } :=
  ⟨by rw [h.others], h.header, h.sizes, h.palette⟩

theorem AgreeOnWritten.withReply (h : AgreeOnWritten s s') (r : HostReply) :
    AgreeOnWritten { s with hostReply := r } { s' with hostReply := r } :=
  ⟨by rw [h.others], h.header, h.sizes, h.palette⟩

/-- In FAIL the sizes and the palette count as unwritten. -/
theorem AgreeOnWritten.raise (h : AgreeOnWritten s s') (e : ErrCode) : AgreeOnWritten (raise e s) (raise e s') where
  others := by rw [h.others]; rfl
  header := h.header
  sizes _ h11 := absurd h11 (show ¬ 12 ≤ 11 by decide)
  palette _ h11 := absurd h11 (show ¬ 12 ≤ 11 by decide)

/-- Up to SIZE the sizes and the palette are unwritten. -/
theorem AgreeOnWritten.goto (h : AgreeOnWritten s s') {p : Phase} (hp : p.code.toNat ≤ 4) :
    AgreeOnWritten (goto p s) (goto p s') where
  others := by rw [h.others]; rfl
  header := h.header
  sizes h5 _ := absurd (h5.trans hp) (by decide)
  palette h7 _ := absurd (h7.trans hp) (by decide)

/-! The operations that run while some of the registers are unwritten. -/

/-- CHKLEN reads SRC_LEN alone. -/
theorem AgreeOnWritten.execChklen (h : AgreeOnWritten s s') : StepsAlike (execChklen s) (execChklen s') := by
  rw [Machine.execChklen, Machine.execChklen, h.srcLen]
  split
  · exact .next (h.raise _)
  · exact .next (h.goto (by decide))

/-- RDHDR reads SRC alone, and writes WIDTH and HEIGHT. -/
theorem AgreeOnWritten.execRdhdr (h : AgreeOnWritten s s') : StepsAlike (execRdhdr s) (execRdhdr s') := by
  have read : Alike (fun t t' => t' = { t with npix := s'.npix, dataSize := s'.dataSize, pal := s'.pal })
      (readHeader s) (readHeader s') := by
    rw [readHeader, readHeader, h.src]
    cases fld32 s.src Config.offWidth with
    | error e => exact .error e
    | ok w =>
      cases fld32 s.src Config.offHeight with
      | error e => exact .error e
      | ok d => exact .ok (by rw [h.others])
  refine finish_alike _ read ?_
  rintro t _ rfl
  exact agreeOnWritten_until_size (t := Machine.goto .chkdim t) _ _ _ (show 3 ≤ 4 by decide)

/-- CHKDIM reads WIDTH and HEIGHT, which RDHDR has written. -/
theorem AgreeOnWritten.execChkdim (h : AgreeOnWritten s s') (hv : s.hdrValid = true) :
    StepsAlike (execChkdim s) (execChkdim s') := by
  obtain ⟨hw, hh⟩ := h.header hv
  rw [Machine.execChkdim, Machine.execChkdim, hw, hh]
  split
  · exact .next (h.raise _)
  · exact .next (h.goto (by decide))

end

/-- SIZE reads WIDTH and HEIGHT, and writes the sizes. -/
theorem execSize_alike (s : State) (n d : Nat) (p : Vector RGB 16) :
    StepsAlike (execSize s) (execSize { s with npix := n, dataSize := d, pal := p }) :=
  .next (agreeOnWritten_until_ldpal p (show 5 ≤ 6 by decide))

/-- LDPIX reads the sizes and SRC, not the palette. -/
theorem execLdpix_alike {s : State} (p : Vector RGB 16) (h6 : phaseNum s ≤ 6) :
    StepsAlike (execLdpix s) (execLdpix { s with pal := p }) := by
  rw [execLdpix, execLdpix]
  split
  · exact .next ((agreeOnWritten_until_ldpal p h6).raise _)
  · refine finish_alike _ (forUp_alike (fun _ t t' => t' = { t with pal := p }) _ _ rfl ?_) ?_
    · rintro k t _ rfl
      simp only [copyPixByte]
      cases readCell .src t.src (Config.hdrSize + k) with
      | error e => exact .error e
      | ok b => exact .ok rfl
    · rintro t _ rfl
      exact agreeOnWritten_until_ldpal (t := goto .ldpal t) p (show 6 ≤ 6 by decide)

/-- t' differs from t in PAL alone, and there in no entry below k. -/
def SamePaletteBelow (k : Nat) (t t' : State) : Prop :=
  t' = { t with pal := t'.pal } ∧ ∀ i (h : i < 16), i < k → t'.pal[i] = t.pal[i]

theorem SamePaletteBelow.eq {t t' : State} (h : SamePaletteBelow 16 t t') : t' = t := by
  rw [h.1, Vector.ext fun i hi => h.2 i hi hi]

/-- A round of LDPAL reads SRC alone, and writes its entry. -/
theorem SamePaletteBelow.loadPalEntry {k : Nat} {t t' : State} (h : SamePaletteBelow k t t') :
    Alike (SamePaletteBelow (k + 1)) (loadPalEntry k t) (loadPalEntry k t') := by
  obtain ⟨he, hp⟩ := h
  rw [he]
  simp only [Machine.loadPalEntry]
  cases palWord t.src t.srcLen.toNat k with
  | error e => exact .error e
  | ok w =>
    refine .ok ⟨rfl, fun i hi hk => ?_⟩
    simp only [Vector.getElem_setIfInBounds]
    split
    · rfl
    · exact hp i hi (by omega)

/-- LDPAL reads DATASIZE and SRC, and writes the whole palette. -/
theorem execLdpal_alike {s : State} (p : Vector RGB 16) (h6 : phaseNum s ≤ 6) :
    StepsAlike (execLdpal s) (execLdpal { s with pal := p }) := by
  rw [execLdpal, execLdpal, ldpalWith, ldpalWith]
  split
  · exact .next ((agreeOnWritten_until_ldpal p h6).raise _)
  · refine finish_alike _ (forUp_alike SamePaletteBelow _ _ ⟨rfl, fun i _ h => absurd h (Nat.not_lt_zero i)⟩
      fun k t t' h => h.loadPalEntry) fun t t' h => ?_
    rw [Nat.zero_add] at h
    rw [h.eq]
    exact .refl _

/-- The core's turn reads no register that is unwritten in its phase. -/
theorem AgreeOnWritten.exec {s s' : State} (h : AgreeOnWritten s s') (hi : RunInv s) :
    StepsAlike (exec (Phase.operation s.phase) s) (exec (Phase.operation s'.phase) s') := by
  rw [h.phase]
  by_cases h7 : 7 ≤ phaseNum s ∧ phaseNum s ≤ 11
  · rw [h.eq_from_unpack hi h7.1 h7.2]
    exact .refl _
  have hnum : ∀ p, s.phase = p → phaseNum s = p.code.toNat := fun p => (phaseNum_eq_iff s p).mpr
  cases hp : s.phase <;> replace hnum : phaseNum s = _ := hnum _ hp
  case unpack | emithdr | emitpix | commit | done => exact absurd (by rw [hnum]; decide) h7
  case idle | fail => exact .next h
  case chklen => exact h.execChklen
  case rdhdr => exact h.execRdhdr
  case chkdim => exact h.execChkdim (hi.headerRead (by rw [hnum]; decide) (by rw [hnum]; decide))
  case size =>
    rw [h.eq_from_chkdim hi (by rw [hnum]; decide) (by rw [hnum]; decide)]
    exact execSize_alike s _ _ _
  case ldpix =>
    rw [h.eq_from_ldpix hi (by rw [hnum]; decide) (by rw [hnum]; decide)]
    exact execLdpix_alike _ (by rw [hnum]; decide)
  case ldpal =>
    rw [h.eq_from_ldpix hi (by rw [hnum]; decide) (by rw [hnum]; decide)]
    exact execLdpal_alike _ (by rw [hnum]; decide)

/-! The host's moves (R186). -/

/-- A host move that is no write of CSR0 is `hostMove`, in the state with the input used up. -/
theorem step_hostMove {s : State} {m : HostMove} {rest : List Input} (hm : ¬ ∃ v, m = .writeCsr 0 v)
    (h : s.inputs = .host m :: rest) : step s = hostMove m (withInputs s rest) := by
  cases m with
  | writeCsr n v => exact step_writeCsr s n v rest (fun h0 => hm ⟨v, h0 ▸ rfl⟩) h
  | writeSrc a b => exact step_writeSrc s a b rest h
  | readCsr n => exact step_readCsr h
  | readOut a => exact step_readOut s a rest h
  | assertReset => exact step_assertReset s rest h

section
variable {s s' : State}

/-- START gives the unwritten registers values that do not depend on the old ones (R180). -/
theorem AgreeOnWritten.runWord_ctrlword (h : AgreeOnWritten s s') (v : Word) :
    StepsAlike (runWord (.ctrlword v) s) (runWord (.ctrlword v) s') := by
  rw [Machine.runWord_ctrlword, Machine.runWord_ctrlword]
  split
  · rw [Machine.exec, Machine.exec, execStart, execStart, h.busy, h.startRun]
    split
    · exact .refl _
    · exact .next h
  · exact .next h

theorem AgreeOnWritten.writeCsr (h : AgreeOnWritten s s') (n : Nat) (v : Word) :
    AgreeOnWritten (writeCsr n v s) (writeCsr n v s') := by
  rw [Machine.writeCsr, Machine.writeCsr, h.busy]
  split
  · exact h.withSrcLen v
  · exact h

theorem AgreeOnWritten.writeSrc (h : AgreeOnWritten s s') (c : Params) (a : Nat) (b : Byte) :
    StepsAlike (writeSrc c a b s) (writeSrc c a b s') := by
  rw [Machine.writeSrc, Machine.writeSrc, h.busy, h.src]
  split
  · split
    · exact .next h
    · exact .next (h.withSrc _)
  · exact .refused _

theorem AgreeOnWritten.readOut (h : AgreeOnWritten s s') (a : Nat) : StepsAlike (readOut a s) (readOut a s') := by
  have hc : (Machine.doneFlag s' = true ∧ a < s'.outLen) = (Machine.doneFlag s = true ∧ a < s.outLen) := by
    rw [h.doneFlag, h.outLen]
  have hr : readCell .out s'.out a = readCell .out s.out a := by rw [h.out]
  simp only [Machine.readOut, hc, hr]
  split
  · cases readCell .out s.out a with
    | ok b => exact .next (h.withReply _)
    | error e => exact .fault e
  · exact .refused _

/-- A host read of CSR3 or CSR4 is refused while the register is unwritten (R32). -/
theorem AgreeOnWritten.readCsr (h : AgreeOnWritten s s') (n : Nat) : readCsr n s' = readCsr n s := by
  unfold Machine.readCsr
  rw [h.status, h.srcLen, h.outLen, h.hdrValid]
  by_cases hv : s.hdrValid = true
  · obtain ⟨hw, hh⟩ := h.header hv
    rw [hw, hh]
  · rw [if_neg hv, if_neg hv, if_neg hv, if_neg hv]

theorem AgreeOnWritten.hostMove (h : AgreeOnWritten s s') (m : HostMove) : StepsAlike (hostMove m s) (hostMove m s') := by
  cases m with
  | writeSrc a b => exact h.writeSrc Params.hw a b
  | writeCsr n v => exact .next (h.writeCsr n v)
  | readCsr n =>
    rw [Machine.hostMove, Machine.hostMove, h.readCsr]
    cases Machine.readCsr n s with
    | ok v => exact .next (h.withReply _)
    | error r => exact .refused r
  | readOut a => exact h.readOut a
  | assertReset =>
    rw [Machine.hostMove, Machine.hostMove, h.assertReset]
    exact .refl _

/-- From states that agree on what has been written, a step does alike whatever comes first in the inputs but a word put to
a function (log 7). -/
theorem AgreeOnWritten.step (h : AgreeOnWritten s s') (hi : RunInv s) (he : ∀ w rest, s.inputs ≠ .eval w :: rest) :
    StepsAlike (step s) (step s') := by
  rcases hin : s.inputs with _ | ⟨i, rest⟩ <;> have hin' := h.inputs.trans hin
  · rw [step_core_empty s hin, step_core_empty s' hin']
    exact h.exec hi
  have hr := h.withInputs rest
  rcases i with m | _ | ok | w
  · by_cases hm : ∃ v, m = .writeCsr 0 v
    · obtain ⟨v, rfl⟩ := hm
      rw [step_writeCtrl s v rest hin, step_writeCtrl s' v rest hin']
      exact hr.runWord_ctrlword v
    · rw [step_hostMove hm hin, step_hostMove hm hin']
      exact hr.hostMove m
  · rw [step_core s rest hin, step_core s' rest hin']
    exact hr.exec (hi.of_outside (.inl ⟨rfl, rfl⟩))
  · rw [step_sink s ok rest hin, step_sink s' ok rest hin']
    exact .next (hr.sinkAnswers ok)
  · exact absurd hin (he w rest)

end

/-- Settles O44: the two steps do alike, so each outcome of the first is matched by the second. -/
theorem unwrittenRegistersAreNotRead : Obligations.UnwrittenRegistersAreNotRead := by
  intro s s' hi h he
  have alike := h.step hi he
  generalize step s' = o' at alike ⊢
  refine ⟨fun t e => ?_, fun f e => ?_, fun r e => ?_⟩ <;> rw [e] at alike
  · cases alike with
    | next h => exact ⟨_, rfl, h⟩
  · cases alike with
    | fault => rfl
  · cases alike with
    | refused => rfl

end Sys2Proof.Machine
